-- ==== Sys2Proof/Word.lean ====
section
/-! DEFINITION. The widths of the block's values (spec/00_scope.md R6 to R8, R10, R11). -/

namespace Sys2Proof

/-- An index value, IW = 8 bits: `ridx`, `count`, a slot number, the IDX field, RVAL (R6). -/
abbrev Idx := BitVec 8

/-- An index sum, SW = 9 bits (R7). -/
abbrev Sum := BitVec 9

/-- A command word (R44). -/
abbrev Cmd := BitVec 16

/-- A status code, the width of RSTAT (R22). -/
abbrev Stat := BitVec 3

/-- An element of the parametric width W, never interpreted by the block (R8).
It is a natural number, kept below 2^W. DESIGN CHOICE, log 3: safe. -/
abbrev Elem := Nat

end Sys2Proof
end

