-- ==== Sys2Proof/Syntax.lean ====
section
/-! DEFINITION. The commands: one constructor per row of spec/opcode_table.json
(spec/30_encoding.md R46, R47, R49, R52). The port and the element operand are not part of a
command word (R44, R46): they come from the interface (Machine/Operands.lean). -/

namespace Sys2Proof

/-- The commands of R47, the pseudo-command PUSHREF of R52 and the catch-all ILLEGAL of R49. -/
inductive Instr where
  /-- 0x0000, R73. -/
  | nop
  /-- 0x0001, R81. -/
  | push
  /-- 0x0002, R83. -/
  | pop
  /-- 0x0003, R80. -/
  | clear
  /-- `(i << 8) | 0x0004`, R84; `i` is the IDX field. -/
  | peek (i : Idx)
  /-- 0x0005, R76. -/
  | qempty
  /-- 0x0006, R77. -/
  | qfull
  /-- 0x0007, R78. -/
  | qsize
  /-- 0x0008, R79. -/
  | qcap
  /-- 0x0009, R85. -/
  | lpush
  /-- 0x000A, R86. -/
  | lpop
  /-- The assembler's second name of PUSH, word 0x0001 (R52, R82, log 11). -/
  | pushref
  /-- A command word that is not legal (R48, R49). -/
  | illegal (w : Cmd)
  deriving DecidableEq, Repr

end Sys2Proof
end

