-- ==== Sys2Proof/Decode.lean ====
section
/-! DEFINITION. Decoding and encoding of command words (spec/30_encoding.md).
Every 16-bit word decodes: a word that is not legal decodes to ILLEGAL, with its reasons by name. -/

namespace Sys2Proof

/-! ### Fields of CMD16 (R45) -/

/-- IDX, bits 15:8 (R45). -/
def idxField (w : Cmd) : BitVec 8 := w.extractLsb' 8 8

/-- RSV, bits 7:4 (R45). -/
def rsvField (w : Cmd) : BitVec 4 := w.extractLsb' 4 4

/-- OP, bits 3:0 (R45). -/
def opField (w : Cmd) : BitVec 4 := w.extractLsb' 0 4

/-- `Legal(cmd)` (R48). -/
def legalWord (w : Cmd) : Bool :=
  rsvField w == 0 && decide (opField w ≤ 0xA) && (opField w == 0x4 || idxField w == 0)

/-- Why a word names no command (R49; the "reason" column of spec/95_test_vectors.md L2.6). -/
inductive RejectReason where
  /-- OP 0xB to 0xF. -/
  | reservedOp
  /-- A nonzero RSV field. -/
  | rsvNonzero
  /-- A nonzero IDX on a command other than PEEK. -/
  | idxNonzero
  deriving DecidableEq, Repr

/-- All reasons for which a word is not legal; none for a legal word (R48, R49). -/
def rejectReasons (w : Cmd) : List RejectReason :=
  (if opField w ≤ 0xA then [] else [.reservedOp]) ++
  (if rsvField w = 0 then [] else [.rsvNonzero]) ++
  (if opField w = 0x4 ∨ idxField w = 0 then [] else [.idxNonzero])

/-! ### The decoder -/

/-- The command a legal OP selects (R47, R71); the five reserved values select none. -/
def decodeOp (op : BitVec 4) (idx : Idx) : Option Instr :=
  match op.toNat with
  | 0x0 => some .nop
  | 0x1 => some .push
  | 0x2 => some .pop
  | 0x3 => some .clear
  | 0x4 => some (.peek idx)
  | 0x5 => some .qempty
  | 0x6 => some .qfull
  | 0x7 => some .qsize
  | 0x8 => some .qcap
  | 0x9 => some .lpush
  | 0xA => some .lpop
  | _ => none

/-- The command of a word: Illegal is checked before anything else (R71, R94), and an illegal word
is executed as the ILLEGAL response (R49). Word 0x0001 is PUSH, never PUSHREF (R52, R82). -/
def decode (w : Cmd) : Instr :=
  if legalWord w then
    match decodeOp (opField w) (idxField w) with
    | some i => i
    | none => .illegal w
  else .illegal w

/-! ### The encoder -/

/-- The expansion of the pseudo-command: `PUSHREF v` expands to `PUSH v` (R52); every other
command stands for itself. -/
def Instr.expand : Instr → Instr
  | .nop => .nop
  | .push => .push
  | .pop => .pop
  | .clear => .clear
  | .peek i => .peek i
  | .qempty => .qempty
  | .qfull => .qfull
  | .qsize => .qsize
  | .qcap => .qcap
  | .lpush => .lpush
  | .lpop => .lpop
  | .pushref => .push
  | .illegal w => .illegal w

/-- The word of a command, from R47's list of whole words; PEEK i is `(i << 8) | 0x0004`. -/
def encode : Instr → Cmd
  | .nop => 0x0000
  | .push => 0x0001
  | .pop => 0x0002
  | .clear => 0x0003
  | .peek i => (i.setWidth 16 <<< 8) ||| 0x0004
  | .qempty => 0x0005
  | .qfull => 0x0006
  | .qsize => 0x0007
  | .qcap => 0x0008
  | .lpush => 0x0009
  | .lpop => 0x000A
  | .pushref => 0x0001
  | .illegal w => w

/-! ### The opcode table -/

/-- A row of spec/opcode_table.json that has a mask and a pattern. -/
structure OpcodeRow where
  /-- The row's "mnemonic". -/
  mnemonic : String
  /-- The row's "mask": the bits the pattern fixes. -/
  mask : Cmd
  /-- The row's "match". -/
  pattern : Cmd
  deriving DecidableEq, Repr

/-- The rows of the core commands, as the table lists them. Its two other rows are PUSHREF, a second
name of PUSH's word, and ILLEGAL, every word that no row here matches. -/
def opcodeRows : List OpcodeRow :=
  [ { mnemonic := "NOP",    mask := 0xFFFF, pattern := 0x0000 },
    { mnemonic := "PUSH",   mask := 0xFFFF, pattern := 0x0001 },
    { mnemonic := "POP",    mask := 0xFFFF, pattern := 0x0002 },
    { mnemonic := "CLEAR",  mask := 0xFFFF, pattern := 0x0003 },
    { mnemonic := "PEEK",   mask := 0x00FF, pattern := 0x0004 },
    { mnemonic := "QEMPTY", mask := 0xFFFF, pattern := 0x0005 } ] ++
  [ { mnemonic := "QFULL",  mask := 0xFFFF, pattern := 0x0006 },
    { mnemonic := "QSIZE",  mask := 0xFFFF, pattern := 0x0007 },
    { mnemonic := "QCAP",   mask := 0xFFFF, pattern := 0x0008 },
    { mnemonic := "LPUSH",  mask := 0xFFFF, pattern := 0x0009 },
    { mnemonic := "LPOP",   mask := 0xFFFF, pattern := 0x000A } ]

/-- The table's rows that match a word. -/
def rowsMatching (w : Cmd) : List OpcodeRow :=
  opcodeRows.filter fun r => w &&& r.mask == r.pattern

/-- The mnemonic of a command, as spec/opcode_table.json spells it. -/
def Instr.mnemonic : Instr → String
  | .nop => "NOP"
  | .push => "PUSH"
  | .pop => "POP"
  | .clear => "CLEAR"
  | .peek _ => "PEEK"
  | .qempty => "QEMPTY"
  | .qfull => "QFULL"
  | .qsize => "QSIZE"
  | .qcap => "QCAP"
  | .lpush => "LPUSH"
  | .lpop => "LPOP"
  | .pushref => "PUSHREF"
  | .illegal _ => "ILLEGAL"

/-! ### The host's view of the decoder -/

/-- The instruction the decoder reads from a table word `w` of `nbits` bits. A command is one 16-bit
word (R44), so a longer row, or a word with a bit set above bit 15, is no command (log 13). -/
def decodeTableWord (nbits w : Nat) : Option Instr :=
  if nbits ≤ 16 ∧ w < 65536 then some (decode (BitVec.ofNat 16 w)) else none

end Sys2Proof
end

