-- ==== Sys2Proof/Config.lean ====
section
/-! DEFINITION. The implementation parameters of a built block (spec/00_scope.md R5, R8, R9).
The spec leaves no result of a command open, so there is no free value here. -/

namespace Sys2Proof

/-- What is fixed when the block is built: the capacity N (R5) and the element width W (R8).
IW and SW are fixed (R6, R7) and no other parameter exists (R9).
Plain numbers, so that an illegal configuration can be written down and refused (log 1). -/
structure Config where
  /-- The capacity N. -/
  N : Nat
  /-- The element width W in bits. -/
  W : Nat
  deriving DecidableEq, Repr

/-- The configuration of `State.reset`: N of the source's own example (spec/95_test_vectors.md L1.1)
and the W of every test vector (R8). DESIGN CHOICE, log 2: unsafe. -/
def Config.standard : Config := { N := 4, W := 8 }

end Sys2Proof
end

