-- ==== Sys2Proof/Machine/State.lean ====
section
/-! DEFINITION. The state of one RBIC instance (spec/10_state.md), the reasons a step can stop, and
the state after reset (spec/70_reset_and_hazards.md R105, R106). -/

namespace Sys2Proof.Machine

/-- The two command ports (spec/41_command_cycle.md R66, spec/60_exceptions.md R102). -/
inductive Port where
  /-- The foreground port. -/
  | F
  /-- The background port. -/
  | B
  deriving DecidableEq, Repr

/-- The response registers of one port (R22, R23, R24). -/
structure PortRegs where
  /-- `P.rstat`, 3 bits (R22). -/
  rstat : Stat
  /-- `P.rval`, 8 bits (R23). -/
  rval : Idx
  /-- `P.rdata`, W bits (R24). -/
  rdata : Elem
  deriving DecidableEq, Repr

/-- The input pins sampled at one rising edge of `clk` (R67). -/
structure CycleInput where
  /-- Synchronous reset, active high (R105). -/
  rst : Bool
  /-- `F_CMD`. -/
  fCmd : Cmd
  /-- `F_WDATA`; its bits W-1:0 are the pins. -/
  fWdata : Elem
  /-- `B_CMD`. -/
  bCmd : Cmd
  /-- `B_WDATA`; its bits W-1:0 are the pins. -/
  bWdata : Elem
  deriving DecidableEq, Repr

/-- The slot storage (R27, R29): the slots that hold a value, by rising slot number. A slot that is
not listed has "no value" (R27). -/
abbrev Memory := List (Nat × Elem)

/-- A set of slot numbers, rising. -/
abbrev SlotSet := List Nat

/-- The state of the block: R15's list, and five fields of the model's own (`cfg`, `wasReset`,
`written`, `active`, `inputs`). -/
structure State where
  /-- The configuration the block was built with (R5, R8); no step changes it.
  The model's own field, log 1. -/
  cfg : Config
  /-- Whether a reset edge has been seen since power-up (R109). The model's own field, log 6. -/
  wasReset : Bool
  /-- The read cursor (R16). -/
  ridx : Idx
  /-- The occupancy counter (R17). -/
  count : Idx
  /-- The slot storage (R27). -/
  slots : Memory
  /-- The slots a push has written since the last reset edge: the record that R19 I4 speaks of, read by
  no command and no output. The model's own field, log 7. -/
  written : SlotSet
  /-- The response registers of port F (R22 to R24). -/
  f : PortRegs
  /-- The response registers of port B (R22 to R24). -/
  b : PortRegs
  /-- The port whose command is being performed: the `P` of `Exec(s, P, cmd, wd)` (R71); B between
  cycles, since B's command is performed first (R69). The model's own field, log 5. -/
  active : Port
  /-- The pins of the cycles to come, oldest first (R66, R74). The model's own field, log 4. -/
  inputs : List CycleInput
  deriving DecidableEq, Repr

/-- The reasons the model faults. The block itself never does (R74): each is reached only from a
state that no run from reset reaches (R19, R60), and stopping there is safe. -/
inductive Fault where
  /-- A command, a clock edge or a reading of the outputs, after a first reset edge, in a state that
  breaks R19's I1, I2 or I4, or holds an rstat of 6 or 7 (R19, D24, U8, U10). Raised by every command,
  every step, with `rst` high too, and by the outputs. Safe. -/
  | brokenInvariant
  /-- `wrap(a)` evaluated with `a ≥ 2N` (R53, D24, U9). Raised by the index arithmetic. Safe. -/
  | wrapOutOfRange
  /-- An access to a slot number that names no slot (R30). Raised by a slot access. Safe. -/
  | noSuchSlot
  /-- A read of a slot with "no value" (R27, D16, U2). Raised by a slot read. Safe. -/
  | slotNoValue
  deriving DecidableEq, Repr

/-- The reasons the model gives a step no meaning. -/
inductive Refusal where
  /-- An instruction whose meaning is not written yet, by its mnemonic. Safe. -/
  | notModelled (mnemonic : String)
  /-- A block built with N outside 1 to 255 or with W = 0 (R5, R8, D4, U6). Raised by every step,
  every command and the outputs. Safe. -/
  | illegalConfiguration
  /-- A command, or a reading of the outputs, before the first reset edge (R109, D23, U3). Raised by
  every command and by the outputs. Safe. -/
  | beforeFirstReset
  deriving DecidableEq, Repr

/-- The response registers after reset (R105, R106). -/
def PortRegs.reset : PortRegs := { rstat := 0, rval := 0, rdata := 0 }

/-- A block of configuration `c` right after its first reset edge (R105, R106), with no slot ever
written (R27, log 8) and nothing presented yet (log 4). -/
def State.resetWith (c : Config) : State :=
  { cfg := c, wasReset := true, ridx := 0, count := 0, slots := [], written := [],
    f := PortRegs.reset, b := PortRegs.reset, active := .B, inputs := [] }

/-- The machine right after reset, in the configuration of log 2. -/
def State.reset : State := State.resetWith Config.standard

end Sys2Proof.Machine
end

