-- ==== Sys2Proof/Machine/Operands.lean ====
section
/-! DEFINITION. Where a command's operands come from, and the index arithmetic
(spec/40_index_arithmetic.md §1, §2; spec/00_scope.md R5 to R11). -/

namespace Sys2Proof.Machine

/-! ### Configuration and widths -/

/-- A legal configuration: N from 1 to 255 (R5) and W at least 1 (R8). -/
def configLegal (c : Config) : Bool := decide (1 ≤ c.N) && decide (c.N ≤ 255) && decide (1 ≤ c.W)

/-- `zext_9(v)` (R11). -/
def zext9 (v : Idx) : Sum := v.setWidth 9

/-- `a[7:0]` (R10). -/
def low8 (a : Sum) : Idx := a.setWidth 8

/-- `zext_9(N)`: the capacity on the width of a sum (R7). -/
def capSum (c : Config) : Sum := BitVec.ofNat 9 c.N

/-- `zext_8(N)`: the capacity on the width of an index (R58, R79). -/
def capIdx (c : Config) : Idx := BitVec.ofNat 8 c.N

/-- `v[W-1:0]`: the W bits a data port carries (R67, R81). -/
def lowW (c : Config) (v : Elem) : Elem := v % 2 ^ c.W

/-! ### The pins -/

/-- A cycle in which neither driver has a command and reset is not asserted: a port that has no
command presents NOP, 0x0000 (R67). -/
def idleInput : CycleInput := { rst := false, fCmd := 0, fWdata := 0, bCmd := 0, bWdata := 0 }

/-- The pins sampled at the next edge. After the end of the input sequence the drivers have no
command: the cycle is idle. DESIGN CHOICE, log 4: unsafe. -/
def pins (s : State) : CycleInput := s.inputs.headD idleInput

/-- The command word a port presents in a cycle (R67). -/
def CycleInput.cmd (c : CycleInput) : Port → Cmd
  | .F => c.fCmd
  | .B => c.bCmd

/-- The data pins of a port in a cycle (R67). -/
def CycleInput.wdata (c : CycleInput) : Port → Elem
  | .F => c.fWdata
  | .B => c.bWdata

/-- The element operand of PUSH and LPUSH: `P_WDATA[W-1:0]` of the port that issued the command,
sampled at the edge (R46, R81, R116). -/
def pushOperand (s : State) : Elem := lowW s.cfg ((pins s).wdata s.active)

/-- The index operand of PEEK: `zext_9(cmd[15:8])` (R46). -/
def peekOperand (i : Idx) : Sum := zext9 i

/-! ### Index arithmetic -/

/-- `wrap(a)`: one conditional subtraction on the 9-bit value; a call with `a ≥ 2N` is a fault
(R53). -/
def wrap (c : Config) (a : Sum) : Except Fault Idx :=
  if 2 * c.N ≤ a.toNat then .error .wrapOutOfRange
  else if capSum c ≤ a then .ok (low8 (a - capSum c))
  else .ok (low8 a)

/-- The write index `widx` (R54), recomputed from the state the command sees (R18). -/
def writeIndex (s : State) : Except Fault Idx := wrap s.cfg (zext9 s.ridx + zext9 s.count)

/-- The physical index of logical position `i`, `phys(i)` (R55). -/
def physIndex (s : State) (i : Sum) : Except Fault Idx := wrap s.cfg (zext9 s.ridx + i)

/-- The advance of the read cursor, `adv(r)` (R56). -/
def advance (c : Config) (r : Idx) : Except Fault Idx := wrap c (zext9 r + 1)

end Sys2Proof.Machine
end

