-- ==== Sys2Proof/Machine/Flags.lean ====
section
/-! DEFINITION. The flags (spec/40_index_arithmetic.md §3), functions of the registered state (R21), and
the registers by port and by number (spec/10_state.md R22 to R25). These are the block's internal logic
and a reader of its fields; what it shows is in Machine/Outputs.lean (log 16). -/

namespace Sys2Proof.Machine

/-- The empty flag (R57). -/
def emptyFlag (s : State) : Bool := s.count == 0

/-- The full flag (R58). -/
def fullFlag (s : State) : Bool := s.count == capIdx s.cfg

/-- `zext_8` of a flag: 1 for true, 0 for false (R76, R77, D10). -/
def flagValue (b : Bool) : Idx := (BitVec.ofBool b).setWidth 8

/-- The response registers of a port. -/
def State.regs (s : State) : Port → PortRegs
  | .F => s.f
  | .B => s.b

/-! ### The registers by number -/

/-- The registers of R25's table. -/
inductive Reg where
  | ridx | count | fRstat | fRval | fRdata | bRstat | bRval | bRdata
  deriving DecidableEq, Repr

/-- The register a number identifies (R25). -/
def Reg.ofNumber : Nat → Option Reg
  | 0 => some .ridx
  | 1 => some .count
  | 2 => some .fRstat
  | 3 => some .fRval
  | 4 => some .fRdata
  | 5 => some .bRstat
  | 6 => some .bRval
  | 7 => some .bRdata
  | _ => none

/-- The width of a register in bits (R25). -/
def Reg.width (c : Config) : Reg → Nat
  | .ridx => 8
  | .count => 8
  | .fRstat => 3
  | .fRval => 8
  | .fRdata => c.W
  | .bRstat => 3
  | .bRval => 8
  | .bRdata => c.W

/-- The value a register holds, as an unsigned number (R11, R25). -/
def State.readReg (s : State) : Reg → Nat
  | .ridx => s.ridx.toNat
  | .count => s.count.toNat
  | .fRstat => s.f.rstat.toNat
  | .fRval => s.f.rval.toNat
  | .fRdata => s.f.rdata
  | .bRstat => s.b.rstat.toNat
  | .bRval => s.b.rval.toNat
  | .bRdata => s.b.rdata

end Sys2Proof.Machine
end

