-- ==== Sys2Proof/Machine/Ops.lean ====
section
/-! DEFINITION. The operations the commands share: the slot storage (spec/20_memory.md), the
registers, raising a condition (spec/60_exceptions.md R89, R90), the frame every command runs in,
the reset state (spec/70_reset_and_hazards.md R105), and the plain push, pop and indexed access. -/

namespace Sys2Proof.Machine

/-! ### The slot storage as a list in one canonical form -/

/-- The value of slot `k`, if it holds one. -/
def Memory.read : Memory → Nat → Option Elem
  | [], _ => none
  | (a, x) :: m, k => if a = k then some x else Memory.read m k

/-- Slot `k` set to `v`, the slots kept by rising number. -/
def Memory.write : Memory → Nat → Elem → Memory
  | [], k, v => [(k, v)]
  | (a, x) :: m, k, v =>
    if k < a then (k, v) :: (a, x) :: m
    else if k = a then (k, v) :: m
    else (a, x) :: Memory.write m k v

/-- Every slot number of `m` is above `k`. -/
def Memory.above (k : Nat) (m : Memory) : Bool := m.all fun c => decide (k < c.1)

/-- The canonical form: slot numbers strictly rising. An unlisted slot reads as "no value", which
no entry equals. -/
def Memory.wf : Memory → Bool
  | [] => true
  | (a, _) :: m => Memory.above a m && Memory.wf m

/-- Every listed slot exists and holds a value of W bits (R27, R30). -/
def Memory.fits (c : Config) (m : Memory) : Bool :=
  m.all fun e => decide (e.1 < c.N) && decide (e.2 < 2 ^ c.W)

/-- `MemRead(k, 1)` (R12, R33): a slot with "no value" faults (R27), as does a number that names no
slot (R30). -/
def memRead (s : State) (k : Idx) : Except Fault Elem :=
  if s.cfg.N ≤ k.toNat then .error .noSuchSlot
  else match Memory.read s.slots k.toNat with
    | some v => .ok v
    | none => .error .slotNoValue

/-- Slot `k` in the set, the slots kept rising. -/
def SlotSet.insert : SlotSet → Nat → SlotSet
  | [], k => [k]
  | a :: w, k => if k < a then k :: a :: w else if k = a then a :: w else a :: SlotSet.insert w k

/-- The canonical form of a set of slots: strictly rising. -/
def SlotSet.wf (w : SlotSet) : Bool := decide (w.Pairwise (· < ·))

/-- Every slot of the set exists (R30). -/
def SlotSet.fits (c : Config) (w : SlotSet) : Bool := w.all fun k => decide (k < c.N)

/-- Slot `k` set to `v`, and recorded as written since reset (R27, log 7). -/
def State.storeSlot (s : State) (k : Nat) (v : Elem) : State :=
  { s with slots := Memory.write s.slots k v, written := SlotSet.insert s.written k }

/-- `MemWrite(k, 1, v)` (R12, R33); only a push performs it (R27). -/
def memWrite (s : State) (k : Idx) (v : Elem) : Except Fault State :=
  if s.cfg.N ≤ k.toNat then .error .noSuchSlot
  else .ok (s.storeSlot k.toNat v)

/-! ### The registers -/

/-- The other port. -/
def Port.other : Port → Port
  | .F => .B
  | .B => .F

/-- `ridx <- v` (R16). -/
def State.setRidx (s : State) (v : Idx) : State := { s with ridx := v }

/-- `count <- v` (R17). -/
def State.setCount (s : State) (v : Idx) : State := { s with count := v }

/-- The response registers of a port, written. -/
def State.setRegs (s : State) (p : Port) (r : PortRegs) : State :=
  match p with
  | .F => { s with f := r }
  | .B => { s with b := r }

/-- `P.rstat <- v` for the port P that issued the command (R22). -/
def State.setRstat (s : State) (v : Stat) : State :=
  s.setRegs s.active { s.regs s.active with rstat := v }

/-- `P.rval <- v` (R23). -/
def State.setRval (s : State) (v : Idx) : State :=
  s.setRegs s.active { s.regs s.active with rval := v }

/-- `P.rdata <- v` (R24). -/
def State.setRdata (s : State) (v : Elem) : State :=
  s.setRegs s.active { s.regs s.active with rdata := v }

/-! ### Status codes and conditions -/

/-- NONE: no command was executed, or reset (R22). -/
def statNone : Stat := 0

/-- OK: the command succeeded (R22). -/
def statOk : Stat := 1

/-- The four conditions with their `info` argument (R89, R90). -/
inductive Condition where
  /-- A push on a full buffer (R91). -/
  | full
  /-- A pop on an empty buffer (R92). -/
  | empty
  /-- An indexed access with `i ≥ count` (R93). -/
  | outOfRange (i : Sum)
  /-- A word that names no command (R94). -/
  | illegal (w : Cmd)
  deriving DecidableEq, Repr

/-- The code of a condition in `P.rstat` (R90). -/
def Condition.code : Condition → Stat
  | .full => 2
  | .empty => 3
  | .outOfRange _ => 4
  | .illegal _ => 5

/-- `raise C(info)`: the code goes to `P.rstat` of the issuing port, nothing else is written and the
info is not recorded (R89). There is no trap and no return from one (R96, R97). -/
def raise (s : State) (c : Condition) : State := s.setRstat c.code

/-! ### The frame of a command -/

/-- An rstat the block can hold: 0 to 5 (R22, U10). -/
def statLegal (v : Stat) : Bool := decide (v.toNat ≤ 5)

/-- The slot of logical position `i` in the source's modulo form (R19 I3). -/
def slotOf (s : State) (i : Nat) : Nat := (s.ridx.toNat + i) % s.cfg.N

/-- R19's invariants: I1, I2, and I4, that every valid slot holds a value and has been written by a push
since reset (log 7); I3 says which slots are the valid ones. With them, no rstat of 6 or 7 (U10). -/
def coherent (s : State) : Bool :=
  decide (s.count.toNat ≤ s.cfg.N) && decide (s.ridx.toNat < s.cfg.N) &&
  (List.range s.count.toNat).all (fun i =>
    (Memory.read s.slots (slotOf s i)).isSome && s.written.contains (slotOf s i)) &&
  statLegal s.f.rstat && statLegal s.b.rstat

/-- A state the model is handed and treats as a fault (R19): a reset edge has been seen and an invariant
is broken. Before the first reset edge the state is unspecified (R109). -/
def broken (s : State) : Bool := s.wasReset && !coherent s

/-- Where the model answers at all: it refuses an illegal configuration (R5) and anything before the
first reset edge (R109), and faults in a state that breaks the invariants (R19); otherwise the body
answers (order of the checks: log 9). -/
def guarded {α : Type} (s : State) (body : Except Fault α) : Host.Outcome α Fault Refusal :=
  if !configLegal s.cfg then .refused .illegalConfiguration
  else if !s.wasReset then .refused .beforeFirstReset
  else if broken s then .fault .brokenInvariant
  else match body with
    | .ok a => .next a
    | .error r => .fault r

/-- The frame every command runs in. -/
def command (s : State) (body : Except Fault State) : Host.Outcome State Fault Refusal :=
  guarded s body

/-! ### The shared effects -/

/-- PUSH(P, v) (R81); LPUSH and PUSHREF have the same effect (R82, R85). -/
def pushElement (s : State) (v : Elem) : Except Fault State :=
  if fullFlag s then .ok (raise s .full)
  else match writeIndex s with
    | .error r => .error r
    | .ok k => match memWrite s k v with
      | .error r => .error r
      | .ok t => .ok ((t.setCount (t.count + 1)).setRstat statOk)

/-- POP(P) (R83); LPOP has the same effect (R86). -/
def popElement (s : State) : Except Fault State :=
  if emptyFlag s then .ok (raise s .empty)
  else match memRead s s.ridx with
    | .error r => .error r
    | .ok v => match advance s.cfg s.ridx with
      | .error r => .error r
      | .ok k => .ok ((((s.setRdata v).setRidx k).setCount (s.count - 1)).setRstat statOk)

/-- PEEK(P, i) (R84): the bound is checked before the index is formed (R55). -/
def peekElement (s : State) (i : Sum) : Except Fault State :=
  if zext9 s.count ≤ i then .ok (raise s (.outOfRange i))
  else match physIndex s i with
    | .error r => .error r
    | .ok k => match memRead s k with
      | .error r => .error r
      | .ok v => .ok ((s.setRdata v).setRstat statOk)

/-- A query: the value goes to `P.rval` (R76 to R79). -/
def queryValue (s : State) (v : Idx) : State := (s.setRval v).setRstat statOk

/-! ### The clock cycle -/

/-- The state in which port `p`'s command is performed (R68, R71). -/
def State.serve (s : State) (p : Port) : State := { s with active := p }

/-- The cycle's pins are used up; between cycles the next command is B's (R68, R69). -/
def State.endCycle (s : State) : State := { s with inputs := s.inputs.tail, active := .B }

/-- `ResetState(s)` (R105): the slots are kept; none has been written since. -/
def resetState (s : State) : State :=
  { s with wasReset := true, ridx := 0, count := 0, written := [], f := PortRegs.reset, b := PortRegs.reset }

/-- The first outcome, then the rest from its next state. -/
def andThen (o : Host.Outcome State Fault Refusal)
    (k : State → Host.Outcome State Fault Refusal) : Host.Outcome State Fault Refusal :=
  match o with
  | .next t => k t
  | .fault r => .fault r
  | .refused r => .refused r

end Sys2Proof.Machine
end

