-- ==== Sys2Proof/Machine/Control.lean ====
section
/-! DEFINITION. NOP (spec/41_command_cycle.md R73) and the ILLEGAL response (spec/30_encoding.md
R49). -/

namespace Sys2Proof.Machine

/-- NOP: `P.rstat <- NONE`, nothing else (R73). -/
def execNop (s : State) : Host.Outcome State Fault Refusal :=
  command s (.ok (s.setRstat statNone))

/-- The ILLEGAL response to a word that names no command (R49, R94). -/
def execIllegal (w : Cmd) (s : State) : Host.Outcome State Fault Refusal :=
  command s (.ok (raise s (.illegal w)))

end Sys2Proof.Machine
end

