-- ==== Sys2Proof/Machine/Indexed.lean ====
section
/-! DEFINITION. Indexed access (spec/44_indexed_access.md). -/

namespace Sys2Proof.Machine

/-- PEEK i (R84). -/
def execPeek (i : Idx) (s : State) : Host.Outcome State Fault Refusal :=
  command s (peekElement s (peekOperand i))

end Sys2Proof.Machine
end

