-- ==== Sys2Proof/Machine/Locked.lean ====
section
/-! DEFINITION. Locked push and pop (spec/45_locked.md): the effects of the plain commands, on either
port, with no lock state (R85 to R88). -/

namespace Sys2Proof.Machine

/-- LPUSH v (R85). -/
def execLpush (s : State) : Host.Outcome State Fault Refusal :=
  command s (pushElement s (pushOperand s))

/-- LPOP (R86). -/
def execLpop (s : State) : Host.Outcome State Fault Refusal :=
  command s (popElement s)

end Sys2Proof.Machine
end

