-- ==== Sys2Proof/Machine/PushPopClear.lean ====
section
/-! DEFINITION. Clear, push, push by pointer and pop (spec/43_push_pop_clear.md). -/

namespace Sys2Proof.Machine

/-- CLEAR (R80): `ridx` and the slots are kept. -/
def execClear (s : State) : Host.Outcome State Fault Refusal :=
  command s (.ok ((s.setCount 0).setRstat statOk))

/-- PUSH v (R81). -/
def execPush (s : State) : Host.Outcome State Fault Refusal :=
  command s (pushElement s (pushOperand s))

/-- PUSHREF v: PUSH in every respect (R82). -/
def execPushref (s : State) : Host.Outcome State Fault Refusal :=
  command s (pushElement s (pushOperand s))

/-- POP (R83). -/
def execPop (s : State) : Host.Outcome State Fault Refusal :=
  command s (popElement s)

end Sys2Proof.Machine
end

