-- ==== Sys2Proof/Machine/Queries.lean ====
section
/-! DEFINITION. The query commands (spec/42_queries.md). -/

namespace Sys2Proof.Machine

/-- QEMPTY (R76). -/
def execQempty (s : State) : Host.Outcome State Fault Refusal :=
  command s (.ok (queryValue s (flagValue (emptyFlag s))))

/-- QFULL (R77). -/
def execQfull (s : State) : Host.Outcome State Fault Refusal :=
  command s (.ok (queryValue s (flagValue (fullFlag s))))

/-- QSIZE (R78). -/
def execQsize (s : State) : Host.Outcome State Fault Refusal :=
  command s (.ok (queryValue s s.count))

/-- QCAP (R79). -/
def execQcap (s : State) : Host.Outcome State Fault Refusal :=
  command s (.ok (queryValue s (capIdx s.cfg)))

end Sys2Proof.Machine
end

