-- ==== Sys2Proof/Machine/Dispatch.lean ====
section
/-! DEFINITION. The dispatch of a command to its rule (spec/41_command_cycle.md R71): the command of
the port `s.active`, with that port's data pins as its element operand. -/

namespace Sys2Proof.Machine

def exec (i : Instr) (s : State) : Host.Outcome State Fault Refusal :=
  match i with
  | .nop => Sys2Proof.Machine.execNop s
  | .push => Sys2Proof.Machine.execPush s
  | .pop => Sys2Proof.Machine.execPop s
  | .clear => Sys2Proof.Machine.execClear s
  | .peek idx => Sys2Proof.Machine.execPeek idx s
  | .qempty => Sys2Proof.Machine.execQempty s
  | .qfull => Sys2Proof.Machine.execQfull s
  | .qsize => Sys2Proof.Machine.execQsize s
  | .qcap => Sys2Proof.Machine.execQcap s
  | .lpush => Sys2Proof.Machine.execLpush s
  | .lpop => Sys2Proof.Machine.execLpop s
  | .pushref => Sys2Proof.Machine.execPushref s
  | .illegal w => Sys2Proof.Machine.execIllegal w s

end Sys2Proof.Machine
end

