-- ==== Sys2Proof/Machine/Cycle.lean ====
section
/-! DEFINITION. One rising edge of `clk` (spec/41_command_cycle.md R68), and the placing of a command
word on the pins. -/

namespace Sys2Proof.Machine

/-- `Exec(s, P, cmd, wd)`: the command word port `p` presents in the cycle, performed (R71). -/
def execPort (p : Port) (s : State) : Host.Outcome State Fault Refusal :=
  exec (decode ((pins s).cmd p)) (s.serve p)

/-- `Step(s, rst, F_CMD, F_WDATA, B_CMD, B_WDATA)` (R68): reset takes precedence over both commands
(R95, R105); otherwise port B's command is performed first, then port F's, which sees its effects
(R69). The cycle's pins are the head of `s.inputs`. A state that breaks the invariants after a first
reset edge is a fault, with `rst` high too (R19; order of the checks: log 9). -/
def clockEdge (s : State) : Host.Outcome State Fault Refusal :=
  if !configLegal s.cfg then .refused .illegalConfiguration
  else if broken s then .fault .brokenInvariant
  else if (pins s).rst then .next (resetState s).endCycle
  else andThen (execPort .B s) fun s1 => andThen (execPort .F s1) fun s2 => .next s2.endCycle

/-- The next cycle's pins with command word `w` on port F, NOP on port B and `rst` low; the data pins
keep their values (log 10). -/
def placeCommand (s : State) (w : Nat) : State :=
  { s with inputs :=
      { pins s with rst := false, fCmd := BitVec.ofNat 16 w, bCmd := 0x0000 } :: s.inputs.tail }

end Sys2Proof.Machine
end

