-- ==== Sys2Proof/Machine/Step.lean ====
section
/-! DEFINITION. One step of the machine: one rising edge of `clk` (spec/41_command_cycle.md R68). -/

namespace Sys2Proof.Machine

/-- One step: one clock edge, with the pins at the head of `s.inputs` (Machine/Cycle.lean). -/
def step (s : State) : Host.Outcome State Fault Refusal := clockEdge s

/-- `s` with the command word `w` presented at the next edge, as the only command of that cycle
(log 10). `nbits` adds nothing: every command is one 16-bit word (R44). -/
def State.withFetchWord (s : State) (_nbits w : Nat) : State := placeCommand s w

end Sys2Proof.Machine
end

