-- ==== Sys2Proof/Machine/Assembler.lean ====
section
/-! DEFINITION. The assembler syntax of the spec's programs (spec/30_encoding.md R51, R52): lines as
data, the pins a line stands for, and the reading of a line's characters. -/

namespace Sys2Proof.Machine

/-- A command as R51 writes it. -/
inductive AsmCommand where
  /-- `NOP`, `POP`, `CLEAR`, `QEMPTY`, `QFULL`, `QSIZE`, `QCAP`, `LPOP`: a mnemonic alone. -/
  | bare (i : Instr)
  /-- `PEEK i`. -/
  | peek (i : Idx)
  /-- `PUSH v`, `LPUSH v`, `PUSHREF v`: the element goes on `P_WDATA`. -/
  | store (i : Instr) (v : Elem)
  /-- `.word 0xhhhh`. -/
  | word (w : Cmd)
  deriving DecidableEq, Repr

/-- One line: an optional cycle number and a command for each port that is written (R51). -/
structure AsmLine where
  /-- The number of the prefix `t=<n>`. -/
  t : Option Nat
  /-- The command written for port B. -/
  b : Option AsmCommand
  /-- The command written for port F. -/
  f : Option AsmCommand
  deriving DecidableEq, Repr

/-- The command word of a command; PUSHREF is expanded by its encoding (R47, R52). -/
def AsmCommand.cmd : AsmCommand → Cmd
  | .bare i => encode i
  | .peek i => encode (.peek i)
  | .store i _ => encode i
  | .word w => w

/-- The element a command puts on its port's data pins; `d` where it puts none. -/
def AsmCommand.operand (d : Elem) : AsmCommand → Elem
  | .bare _ => d
  | .peek _ => d
  | .store _ v => v
  | .word _ => d

/-- The word of a port: a port not written executes NOP, word 0x0000 (R51). -/
def portCmd : Option AsmCommand → Cmd
  | none => 0x0000
  | some c => c.cmd

/-- The data pins of a port, `d` where the line puts no element on them. -/
def portOperand (d : Elem) : Option AsmCommand → Elem
  | none => d
  | some c => c.operand d

/-- The pins of the cycle a line stands for, with the data pins `fd` and `bd` where the line does
not set them (log 14); no line asserts reset. -/
def assemble (l : AsmLine) (fd bd : Elem) : CycleInput :=
  { rst := false, fCmd := portCmd l.f, fWdata := portOperand fd l.f,
    bCmd := portCmd l.b, bWdata := portOperand bd l.b }

/-! ### Reading a line -/

/-- The words of a line, separated by spaces (log 14). -/
def splitAtSpaces : List Char → List (List Char)
  | [] => []
  | c :: cs =>
    if c = ' ' then [] :: splitAtSpaces cs
    else match splitAtSpaces cs with
      | [] => [[c]]
      | w :: ws => (c :: w) :: ws

/-- The nonempty words of a line. -/
def lineWords (cs : List Char) : List (List Char) := (splitAtSpaces cs).filter (· ≠ [])

/-- The value of a digit in base 10 or 16; a hexadecimal letter in either case (log 14). -/
def digitValue (base : Nat) (c : Char) : Option Nat :=
  let v := if 48 ≤ c.toNat ∧ c.toNat ≤ 57 then c.toNat - 48
    else if 65 ≤ c.toNat ∧ c.toNat ≤ 70 then c.toNat - 55
    else if 97 ≤ c.toNat ∧ c.toNat ≤ 102 then c.toNat - 87
    else base
  if v < base then some v else none

/-- The digits after `acc`, most significant first. -/
def readDigits (base : Nat) : Nat → List Char → Option Nat
  | acc, [] => some acc
  | acc, c :: cs => match digitValue base c with
    | some d => readDigits base (acc * base + d) cs
    | none => none

/-- A number in decimal, or in hexadecimal with prefix `0x` (R10, R51). -/
def readNumber : List Char → Option Nat
  | [] => none
  | '0' :: 'x' :: c :: cs => readDigits 16 0 (c :: cs)
  | c :: cs => readDigits 10 0 (c :: cs)

/-- The commands written as a mnemonic alone. -/
def bareCommand (w : List Char) : Option Instr :=
  [Instr.nop, .pop, .clear, .qempty, .qfull, .qsize, .qcap, .lpop].find?
    fun i => i.mnemonic.toList = w

/-- The commands written with an element. -/
def storeCommand (w : List Char) : Option Instr :=
  [Instr.push, .lpush, .pushref].find? fun i => i.mnemonic.toList = w

/-- The raw word after `.word`, exactly `0xhhhh`: the prefix and four hexadecimal digits, as R51
writes it. A decimal number, and any other count of digits, is not read. DESIGN CHOICE, log 14: safe. -/
def readRawWord : List Char → Option Cmd
  | ['0', 'x', a, b, c, d] => (readDigits 16 0 [a, b, c, d]).map (BitVec.ofNat 16)
  | _ => none

/-- The index after `PEEK`, in decimal or hexadecimal (R51); it has to fit the 8 bits of IDX (R45).
DESIGN CHOICE, log 14: safe. -/
def readIndex (n : List Char) : Option Idx :=
  match readNumber n with
  | some k => if k < 256 then some (BitVec.ofNat 8 k) else none
  | none => none

/-- One command from its words (R51). R51 does not write the form of the element of a push: it is
read as the index of PEEK is, in decimal or hexadecimal. DESIGN CHOICE, log 14: safe. -/
def readCommand : List (List Char) → Option AsmCommand
  | [w] => (bareCommand w).map .bare
  | [w, n] =>
    if w = (Instr.mnemonic (.peek 0)).toList then (readIndex n).map .peek
    else if w = ".word".toList then (readRawWord n).map .word
    else match storeCommand w, readNumber n with
      | some i, some v => some (.store i v)
      | _, _ => none
  | _ => none

/-- The words up to the separator `|`, and the words after it, if it stands there. -/
def splitAtBar : List (List Char) → List (List Char) × Option (List (List Char))
  | [] => ([], none)
  | w :: ws =>
    if w = ['|'] then ([], some ws)
    else ((w :: (splitAtBar ws).1), (splitAtBar ws).2)

/-- The commands of a line, `B: <command> | F: <command>`, either of them left out (R51), in that
order and not both left out (log 14). -/
def readPorts (t : Option Nat) (ws : List (List Char)) : Option AsmLine :=
  match splitAtBar ws with
  | (['B', ':'] :: c, none) => (readCommand c).map fun b => { t := t, b := some b, f := none }
  | (['F', ':'] :: c, none) => (readCommand c).map fun f => { t := t, b := none, f := some f }
  | (['B', ':'] :: c, some (['F', ':'] :: d)) =>
    match readCommand c, readCommand d with
    | some b, some f => some { t := t, b := some b, f := some f }
    | _, _ => none
  | _ => none

/-- A line of a program from its characters, with the optional prefix `t=<n>` (R51). -/
def readLine (cs : List Char) : Option AsmLine :=
  match lineWords cs with
  | ('t' :: '=' :: n) :: ws => match readDigits 10 0 n with
    | some k => if n = [] then none else readPorts (some k) ws
    | none => none
  | ws => readPorts none ws

end Sys2Proof.Machine
end

