-- ==== Sys2Proof/Machine/Outputs.lean ====
section
/-! DEFINITION. The outputs the block drives (spec/40_index_arithmetic.md §4; spec/41_command_cycle.md
R67), functions of the registered state (R59, R112). They have values where commands are performed;
elsewhere the model stops as it does on a command (log 15, log 16). -/

namespace Sys2Proof.Machine

/-- The six status outputs (R59). -/
structure StatusOutputs where
  /-- `ST_EMPTY`. -/
  empty : Bool
  /-- `ST_FULL`. -/
  full : Bool
  /-- `ST_COUNT`. -/
  count : Idx
  /-- `ST_RIDX`. -/
  ridx : Idx
  /-- `ST_WIDX`. -/
  widx : Idx
  /-- `ST_CAP`. -/
  cap : Idx
  deriving DecidableEq, Repr

/-- The combinational logic of the status outputs (R59). -/
def statusLogic (s : State) : Except Fault StatusOutputs :=
  match writeIndex s with
  | .error r => .error r
  | .ok k => .ok { empty := emptyFlag s, full := fullFlag s, count := s.count, ridx := s.ridx,
                   widx := k, cap := capIdx s.cfg }

/-- The status outputs in a state: they show the state before the edge, never a command presented
in the same cycle (R59, R112). An illegal configuration is refused (R5), and a state that breaks the
invariants is a fault, never a value (R19). That outputs are refused before the first reset edge is
log 15 (DEDUCED: safe); that R5 and R19 govern outputs as they govern commands is log 16 (DEDUCED:
safe). -/
def statusOutputs (s : State) : Host.Outcome StatusOutputs Fault Refusal :=
  guarded s (statusLogic s)

/-- All outputs of the interface (R67). -/
structure Outputs where
  /-- `F_RSTAT`, `F_RVAL`, `F_RDATA`. -/
  f : PortRegs
  /-- `B_RSTAT`, `B_RVAL`, `B_RDATA`. -/
  b : PortRegs
  /-- The `ST_*` outputs. -/
  st : StatusOutputs
  deriving DecidableEq, Repr

/-- What the block drives in a state: the registers and the status outputs (R67, R74, R111). The model
stops where `statusOutputs` does (log 15, log 16). -/
def outputs (s : State) : Host.Outcome Outputs Fault Refusal :=
  guarded s (match statusLogic s with
    | .error r => .error r
    | .ok st => .ok { f := s.regs .F, b := s.regs .B, st := st })

end Sys2Proof.Machine
end

