-- ==== Sys2Proof/WellFormed.lean ====
section
/-! DEFINITION. Which terms of Instr stand for a command (spec/30_encoding.md R45, R48, R49). -/

namespace Sys2Proof

/-- A well-formed instruction. IDX is within its 8 bits by its type (R45); the catch-all row
ILLEGAL stands for the words that are not legal, and only for those (R49). -/
abbrev Instr.wellFormed : Instr → Bool
  | .nop => true
  | .push => true
  | .pop => true
  | .clear => true
  | .peek _ => true
  | .qempty => true
  | .qfull => true
  | .qsize => true
  | .qcap => true
  | .lpush => true
  | .lpop => true
  | .pushref => true
  | .illegal w => !legalWord w

end Sys2Proof
end

