-- ==== Sys2Proof/Safety.lean ====
section
/-! DEFINITION. What claims are stated in: the states in which commands are performed, the invariant
of the machine, and the FIFO abstraction (spec/10_state.md R19; spec/40_index_arithmetic.md R65). -/

namespace Sys2Proof

/-! ### Kinds of command -/

/-- A command that pushes an element (R81, R82, R85). -/
def Instr.pushes : Instr → Bool
  | .nop => false
  | .push => true
  | .pop => false
  | .clear => false
  | .peek _ => false
  | .qempty => false
  | .qfull => false
  | .qsize => false
  | .qcap => false
  | .lpush => true
  | .lpop => false
  | .pushref => true
  | .illegal _ => false

/-- A command that pops an element (R83, R86). -/
def Instr.pops : Instr → Bool
  | .nop => false
  | .push => false
  | .pop => true
  | .clear => false
  | .peek _ => false
  | .qempty => false
  | .qfull => false
  | .qsize => false
  | .qcap => false
  | .lpush => false
  | .lpop => true
  | .pushref => false
  | .illegal _ => false

/-- A command that reads an element into `P.rdata` on success (R24). -/
def Instr.reads : Instr → Bool
  | .nop => false
  | .push => false
  | .pop => true
  | .clear => false
  | .peek _ => true
  | .qempty => false
  | .qfull => false
  | .qsize => false
  | .qcap => false
  | .lpush => false
  | .lpop => true
  | .pushref => false
  | .illegal _ => false

/-- A query (R76 to R79). -/
def Instr.queries : Instr → Bool
  | .nop => false
  | .push => false
  | .pop => false
  | .clear => false
  | .peek _ => false
  | .qempty => true
  | .qfull => true
  | .qsize => true
  | .qcap => true
  | .lpush => false
  | .lpop => false
  | .pushref => false
  | .illegal _ => false

end Sys2Proof

namespace Sys2Proof.Machine

/-! ### States -/

/-- The states in which commands are performed: a legal configuration (R5, R8), after the first reset
edge (R109), with the invariants of R19. -/
def State.ready (s : State) : Bool := configLegal s.cfg && s.wasReset && coherent s

/-- The registers and the slots are within their widths, and the slot lists are in canonical form. -/
def State.shaped (s : State) : Bool :=
  Memory.wf s.slots && Memory.fits s.cfg s.slots && SlotSet.wf s.written &&
  SlotSet.fits s.cfg s.written &&
  decide (s.f.rdata < 2 ^ s.cfg.W) && decide (s.b.rdata < 2 ^ s.cfg.W)

/-- The invariant every step keeps. -/
def State.inv (s : State) : Bool := s.ready && s.shaped

/-- What no command of the port `s.active` changes: the configuration, the pins to come, and the
other port's registers (R72). -/
def State.SameOutside (s t : State) : Prop :=
  t.cfg = s.cfg ∧ t.wasReset = s.wasReset ∧ t.active = s.active ∧ t.inputs = s.inputs ∧
  t.regs s.active.other = s.regs s.active.other

/-- The same cursor, counter and slots. -/
def State.SameBuffer (s t : State) : Prop := t.ridx = s.ridx ∧ t.count = s.count ∧ t.slots = s.slots

/-! ### The FIFO abstraction -/

/-- `contents(s)`: the valid elements, oldest first (R65). -/
def contents (s : State) : List Elem :=
  (List.range s.count.toNat).filterMap fun i => Memory.read s.slots (slotOf s i)

/-- An abstract push of `v` on a queue of capacity `n`: the new queue and the status. -/
def fifoPush (n : Nat) (v : Elem) (q : List Elem) (r : PortRegs) : List Elem × PortRegs :=
  if q.length < n then (q ++ [v], { r with rstat := 1 }) else (q, { r with rstat := 2 })

/-- An abstract pop. -/
def fifoPop (q : List Elem) (r : PortRegs) : List Elem × PortRegs :=
  match q with
  | [] => ([], { r with rstat := 3 })
  | x :: q => (q, { r with rstat := 1, rdata := x })

/-- An abstract indexed access. -/
def fifoPeek (k : Nat) (q : List Elem) (r : PortRegs) : List Elem × PortRegs :=
  match q[k]? with
  | none => (q, { r with rstat := 4 })
  | some x => (q, { r with rstat := 1, rdata := x })

/-- A command on a plain queue of capacity `n`, with element operand `v` and the issuing port's
registers `r`: the source's operations with no cursor, no counter and no slots (R65, R76 to R86). -/
def fifoCommand (n : Nat) (v : Elem) (i : Instr) (q : List Elem) (r : PortRegs) :
    List Elem × PortRegs :=
  match i with
  | .nop => (q, { r with rstat := 0 })
  | .push => fifoPush n v q r
  | .pop => fifoPop q r
  | .clear => ([], { r with rstat := 1 })
  | .peek k => fifoPeek k.toNat q r
  | .qempty => (q, { r with rstat := 1, rval := if q = [] then 1 else 0 })
  | .qfull => (q, { r with rstat := 1, rval := if q.length = n then 1 else 0 })
  | .qsize => (q, { r with rstat := 1, rval := BitVec.ofNat 8 q.length })
  | .qcap => (q, { r with rstat := 1, rval := BitVec.ofNat 8 n })
  | .lpush => fifoPush n v q r
  | .lpop => fifoPop q r
  | .pushref => fifoPush n v q r
  | .illegal _ => (q, { r with rstat := 5 })

/-! ### Runs, as a driver sees them -/

/-- `n` clock edges, stopping at the first fault or refusal (R74); it is `Host.Core.run` of the
machine (Laws/Step.lean, `run_eq_core_run`). -/
def run : Nat → State → Host.Outcome State Fault Refusal
  | 0, s => .next s
  | n + 1, s => andThen (step s) (run n)

/-- What happens to an element. -/
inductive Event where
  /-- Pushed by a push that answered OK. -/
  | pushed (v : Elem)
  /-- Returned in `P.rdata` by a pop that answered OK. -/
  | popped (v : Elem)
  /-- Removed by CLEAR or reset. -/
  | dropped (v : Elem)
  deriving DecidableEq, Repr

/-- The elements pushed, in order. -/
def pushedOf (es : List Event) : List Elem :=
  es.filterMap fun | .pushed v => some v | .popped _ => none | .dropped _ => none

/-- The elements popped or dropped, in order. -/
def removedOf (es : List Event) : List Elem :=
  es.filterMap fun | .pushed _ => none | .popped v => some v | .dropped v => some v

/-- The events of a command performed in `s` with result `t`, read off the response registers of the
issuing port: status OK, and for a pop the element in `P.rdata`. -/
def commandEvents (i : Instr) (s t : State) : List Event :=
  if (t.regs s.active).rstat ≠ 1 then []
  else if i.pushes then [.pushed (pushOperand s)]
  else if i.pops then [.popped (t.regs s.active).rdata]
  else if i = .clear then (contents s).map .dropped
  else []

/-- The events of one port's command in a cycle. -/
def portEvents (p : Port) (s : State) : List Event :=
  match execPort p s with
  | .next t => commandEvents (decode ((pins s).cmd p)) (s.serve p) t
  | .fault _ => []
  | .refused _ => []

/-- The events of one clock edge, in the serial order of R36. -/
def cycleEvents (s : State) : List Event :=
  if (pins s).rst then (contents s).map .dropped
  else portEvents .B s ++
    match execPort .B s with
    | .next t => portEvents .F t
    | .fault _ => []
    | .refused _ => []

/-- The events of `n` clock edges. -/
def runEvents : Nat → State → List Event
  | 0, _ => []
  | n + 1, s => cycleEvents s ++
    match step s with
    | .next t => runEvents n t
    | .fault _ => []
    | .refused _ => []

/-! ### The contracts shared by a command and its other forms -/

/-- The element a port presents at the next edge: `P_WDATA[W-1:0]` (R81). -/
def State.presented (s : State) : Elem := (pins s).wdata s.active % 2 ^ s.cfg.W

/-- What R81 says of a push, for a command `i`: on a full buffer only the status FULL; otherwise the
element goes to slot `(ridx + count) mod N`, the counter goes up by one, the status is OK, and
nothing else changes. -/
def PushContract (i : Instr) : Prop :=
  ∀ s : State, s.ready = true →
    (s.count.toNat = s.cfg.N → ∃ t, exec i s = .next t ∧ s.SameOutside t ∧ s.SameBuffer t ∧
      t.regs s.active = { s.regs s.active with rstat := 2 }) ∧
    (s.count.toNat < s.cfg.N → ∃ t k, exec i s = .next t ∧ s.SameOutside t ∧
      t.ridx = s.ridx ∧ t.count.toNat = s.count.toNat + 1 ∧
      t.regs s.active = { s.regs s.active with rstat := 1 } ∧
      writeIndex s = .ok k ∧ k.toNat = (s.ridx.toNat + s.count.toNat) % s.cfg.N ∧
      Memory.read t.slots k.toNat = some s.presented ∧
      (∀ a, a ≠ k.toNat → Memory.read t.slots a = Memory.read s.slots a) ∧
      emptyFlag t = false ∧ (fullFlag t = true ↔ s.count.toNat + 1 = s.cfg.N))

/-- What R83 says of a pop, for a command `i`: on an empty buffer only the status EMPTY; otherwise
the element of slot `ridx` goes to `P.rdata`, the cursor advances modulo N, the counter goes down by
one, the status is OK, and nothing else changes. -/
def PopContract (i : Instr) : Prop :=
  ∀ s : State, s.ready = true →
    (s.count.toNat = 0 → ∃ t, exec i s = .next t ∧ s.SameOutside t ∧ s.SameBuffer t ∧
      t.regs s.active = { s.regs s.active with rstat := 3 }) ∧
    (0 < s.count.toNat → ∃ t v, exec i s = .next t ∧ s.SameOutside t ∧
      Memory.read s.slots s.ridx.toNat = some v ∧
      t.regs s.active = { s.regs s.active with rdata := v, rstat := 1 } ∧
      t.ridx.toNat = (s.ridx.toNat + 1) % s.cfg.N ∧ t.count.toNat + 1 = s.count.toNat ∧
      t.slots = s.slots ∧ fullFlag t = false ∧ (emptyFlag t = true ↔ s.count.toNat = 1))

/-- What R76 to R79 say of a query, for a command `i` whose value is `value`: the value goes to
`P.rval`, the status is OK, and nothing else changes. -/
def QueryContract (i : Instr) (value : State → Nat) : Prop :=
  ∀ s : State, s.ready = true → ∃ t, exec i s = .next t ∧ s.SameOutside t ∧ s.SameBuffer t ∧
    (t.regs s.active).rval.toNat = value s ∧ (t.regs s.active).rstat = 1 ∧
    (t.regs s.active).rdata = (s.regs s.active).rdata

/-- A word of the plain command in place of a locked one (R85, R86). -/
def unlockWord (w : Cmd) : Cmd := if w = 0x0009 then 0x0001 else if w = 0x000A then 0x0002 else w

/-- The same cycle with plain commands in place of locked ones. -/
def CycleInput.unlock (c : CycleInput) : CycleInput :=
  { c with fCmd := unlockWord c.fCmd, bCmd := unlockWord c.bCmd }

/-- The same state with plain commands in place of locked ones in the cycles to come. -/
def State.unlock (s : State) : State := { s with inputs := s.inputs.map CycleInput.unlock }

end Sys2Proof.Machine
end

