-- ==== Sys2Proof/Certificates/Slice0/Obligations.lean ====
section
/-! DEFINITION. The statements for the provers, each with the rule of spec/ it comes from. -/

open Sys2Proof Sys2Proof.Machine

/-! ### Encoding -/

/-- R48: exactly the words for which `Legal(cmd)` is false decode to ILLEGAL. -/
def Obligations.IllegalExactlyWhenNotLegal : Prop :=
  ∀ w : Cmd, decode w = .illegal w ↔
    ¬ (w.extractLsb' 4 4 = 0 ∧ (w.extractLsb' 0 4).toNat ≤ 10 ∧
      (w.extractLsb' 0 4 = 4 ∨ w.extractLsb' 8 8 = 0))

/-- R46, R47: every word that the map or spec/95_test_vectors.md L2.6 lists decodes to the command, or
to ILLEGAL, that stands beside it there. -/
def Obligations.DecodesWordsOfTheOpcodeMap : Prop :=
  decode 0x0000 = .nop ∧ decode 0x0001 = .push ∧ decode 0x0002 = .pop ∧ decode 0x0003 = .clear ∧
  decode 0x0004 = .peek 0 ∧ decode 0x7F04 = .peek 127 ∧ decode 0xFF04 = .peek 255 ∧
  decode 0x0005 = .qempty ∧ decode 0x0006 = .qfull ∧ decode 0x0007 = .qsize ∧
  decode 0x0008 = .qcap ∧ decode 0x0009 = .lpush ∧ decode 0x000A = .lpop ∧
  decode 0x000B = .illegal 0x000B ∧ decode 0x000C = .illegal 0x000C ∧
  decode 0x000D = .illegal 0x000D ∧ decode 0x000E = .illegal 0x000E ∧
  decode 0x000F = .illegal 0x000F ∧
  decode 0x0010 = .illegal 0x0010 ∧ decode 0x00F1 = .illegal 0x00F1 ∧
  decode 0x0100 = .illegal 0x0100 ∧ decode 0x0301 = .illegal 0x0301 ∧
  decode 0xFFFF = .illegal 0xFFFF

/-- Decoding the word of a well-formed command gives the command back, PUSHREF expanded (R52). -/
def Obligations.DecodeEncodeGivesTheCommandBack : Prop :=
  ∀ i : Instr, i.wellFormed = true → decode (encode i) = i.expand

/-- Every word is the word of the command it decodes to, and that command is well-formed: no bit of a
word is dropped. -/
def Obligations.EncodeDecodeGivesTheWordBack : Prop :=
  ∀ w : Cmd, encode (decode w) = w ∧ (decode w).wellFormed = true

/-- spec/opcode_table.json: a word matches at most one row of the core commands, decodes to that row's
mnemonic, and decodes to ILLEGAL exactly when it matches none. -/
def Obligations.DecoderFollowsTheOpcodeTable : Prop :=
  ∀ w : Cmd, (rowsMatching w).length ≤ 1 ∧
    (∀ r ∈ rowsMatching w, (decode w).mnemonic = r.mnemonic) ∧
    (decode w = .illegal w ↔ rowsMatching w = [])

/-- R51: a port not written executes NOP, a raw word is presented as written, a mnemonic as its word,
`PEEK i` as the word of PEEK with its index, and the element of a push is on its port's data pins. -/
def Obligations.AssemblerPresentsTheLine : Prop :=
  ∀ (t : Option Nat) (c d : Option AsmCommand) (fd bd : Elem) (w : Cmd) (i : Instr) (k : Idx)
    (v : Elem),
    decode (assemble { t := t, b := c, f := none } fd bd).fCmd = .nop ∧
    decode (assemble { t := t, b := none, f := d } fd bd).bCmd = .nop ∧
    (assemble { t := t, b := c, f := some (.word w) } fd bd).fCmd = w ∧
    (assemble { t := t, b := some (.word w), f := d } fd bd).bCmd = w ∧
    (assemble { t := t, b := c, f := some (.bare i) } fd bd).fCmd = encode i ∧
    (assemble { t := t, b := some (.bare i), f := d } fd bd).bCmd = encode i ∧
    (assemble { t := t, b := c, f := some (.peek k) } fd bd).fCmd = encode (.peek k) ∧
    (assemble { t := t, b := some (.peek k), f := d } fd bd).bCmd = encode (.peek k) ∧
    (assemble { t := t, b := c, f := some (.store i v) } fd bd).fCmd = encode i ∧
    (assemble { t := t, b := c, f := some (.store i v) } fd bd).fWdata = v ∧
    (assemble { t := t, b := some (.store i v), f := d } fd bd).bCmd = encode i ∧
    (assemble { t := t, b := some (.store i v), f := d } fd bd).bWdata = v

/-! ### Index arithmetic, flags and outputs -/

/-- R53: on a legal configuration `wrap` is one conditional subtraction below `2N` and a fault from
`2N` on. -/
def Obligations.WrapIsOneConditionalSubtraction : Prop :=
  ∀ (c : Config) (a : Sum), configLegal c = true →
    (a.toNat < c.N → ∃ k, wrap c a = .ok k ∧ k.toNat = a.toNat) ∧
    (c.N ≤ a.toNat → a.toNat < 2 * c.N → ∃ k, wrap c a = .ok k ∧ k.toNat = a.toNat - c.N) ∧
    (2 * c.N ≤ a.toNat → wrap c a = .error .wrapOutOfRange)

/-- R54 and the modulo form of R61: the write index is `(ridx + count) mod N`, and it is `ridx` on an
empty and on a full buffer. -/
def Obligations.WriteIndexIsRidxPlusCountModN : Prop :=
  ∀ s : State, s.ready = true → ∃ k, writeIndex s = .ok k ∧
    k.toNat = (s.ridx.toNat + s.count.toNat) % s.cfg.N ∧
    (s.count.toNat = 0 ∨ s.count.toNat = s.cfg.N → k = s.ridx)

/-- R55: the physical index of logical position `i < count` is `(ridx + i) mod N`, and that of
position 0 is `ridx`. -/
def Obligations.PhysicalIndexIsRidxPlusPositionModN : Prop :=
  ∀ (s : State) (i : Idx), s.ready = true → i.toNat < s.count.toNat →
    ∃ k, physIndex s (zext9 i) = .ok k ∧ k.toNat = (s.ridx.toNat + i.toNat) % s.cfg.N ∧
      (i = 0 → k = s.ridx)

/-- R56: the cursor advances by one and from `N - 1` to 0. -/
def Obligations.CursorAdvancesByOneModN : Prop :=
  ∀ (c : Config) (r : Idx), configLegal c = true → r.toNat < c.N →
    ∃ k, advance c r = .ok k ∧ (r.toNat + 1 < c.N → k.toNat = r.toNat + 1) ∧
      (r.toNat + 1 = c.N → k = 0)

/-- R57, R58: empty is `count = 0`, full is `count = N`. The flags are internal logic, whose
values in a state that breaks R19's invariants nothing shows (log 16). -/
def Obligations.FlagsFollowTheCounter : Prop :=
  ∀ s : State, configLegal s.cfg = true →
    (emptyFlag s = true ↔ s.count.toNat = 0) ∧ (fullFlag s = true ↔ s.count.toNat = s.cfg.N)

/-- The flags are never both set, and neither is set in between (40_index_arithmetic.md §3, an
inference of the spec); in a state that breaks R19's invariants nothing shows them (log 16). -/
def Obligations.FlagsExcludeEachOther : Prop :=
  ∀ s : State, configLegal s.cfg = true →
    ¬ (emptyFlag s = true ∧ fullFlag s = true) ∧
    (0 < s.count.toNat → s.count.toNat < s.cfg.N → emptyFlag s = false ∧ fullFlag s = false)

/-- R59: the six status outputs, and that they do not depend on the commands presented. -/
def Obligations.StatusOutputsShowTheRegisteredState : Prop :=
  ∀ s : State, s.ready = true → ∃ o, statusOutputs s = .next o ∧
    (o.empty = true ↔ s.count.toNat = 0) ∧ (o.full = true ↔ s.count.toNat = s.cfg.N) ∧
    o.count = s.count ∧ o.ridx = s.ridx ∧
    writeIndex s = .ok o.widx ∧ o.cap.toNat = s.cfg.N ∧
    (∀ cs p, statusOutputs { s with inputs := cs, active := p } = .next o)

/-- In every ready state the outputs of the interface are the response registers of the two ports and
the status outputs (41_command_cycle.md §1). -/
def Obligations.OutputsShowTheResponseRegisters : Prop :=
  ∀ s : State, s.ready = true → ∃ o, outputs s = .next o ∧ o.f = s.f ∧ o.b = s.b ∧
    statusOutputs s = .next o.st

/-- R63: the pair (ridx, widx) determines the counter modulo N only. -/
def Obligations.PointerPairDeterminesCountModN : Prop :=
  ∀ (s : State) (k : Idx), s.ready = true → writeIndex s = .ok k →
    (k.toNat + s.cfg.N - s.ridx.toNat) % s.cfg.N = s.count.toNat % s.cfg.N

/-! ### The commands -/

/-- R73: NOP is the word 0x0000 alone; it writes NONE to its port's status and nothing else. -/
def Obligations.NopWritesNone : Prop :=
  (∀ w : Cmd, decode w = .nop ↔ w = 0x0000) ∧
  ∀ s : State, s.ready = true → ∃ t, exec .nop s = .next t ∧ s.SameOutside t ∧ s.SameBuffer t ∧
    t.regs s.active = { s.regs s.active with rstat := 0 }

/-- R49, R94: a word that is not legal decodes to ILLEGAL, whose response is the status ILLEGAL and
nothing else, on a full and on an empty buffer too; the block goes on. -/
def Obligations.IllegalWordWritesOnlyItsStatus : Prop :=
  ∀ w : Cmd, legalWord w = false → decode w = .illegal w ∧
    ∀ s : State, s.ready = true → ∃ t, exec (.illegal w) s = .next t ∧ s.SameOutside t ∧
      s.SameBuffer t ∧ t.regs s.active = { s.regs s.active with rstat := 5 } ∧ t.ready = true

/-- R76: QEMPTY answers 1 in `P.rval` when the counter is 0, else 0, and changes nothing else. -/
def Obligations.QemptyAnswersWhetherCountIsZero : Prop :=
  (∀ w : Cmd, decode w = .qempty ↔ w = 0x0005) ∧
  QueryContract .qempty fun s => if s.count.toNat = 0 then 1 else 0

/-- R77: QFULL answers 1 in `P.rval` when the counter is N, else 0, and changes nothing else. -/
def Obligations.QfullAnswersWhetherCountIsN : Prop :=
  (∀ w : Cmd, decode w = .qfull ↔ w = 0x0006) ∧
  QueryContract .qfull fun s => if s.count.toNat = s.cfg.N then 1 else 0

/-- R78: QSIZE answers the counter in `P.rval` and changes nothing else. -/
def Obligations.QsizeAnswersCount : Prop :=
  (∀ w : Cmd, decode w = .qsize ↔ w = 0x0007) ∧ QueryContract .qsize fun s => s.count.toNat

/-- R79: QCAP answers N in `P.rval`, whatever the state, and changes nothing else. -/
def Obligations.QcapAnswersN : Prop :=
  (∀ w : Cmd, decode w = .qcap ↔ w = 0x0008) ∧ QueryContract .qcap fun s => s.cfg.N

/-- R80: CLEAR sets the counter to 0 and keeps the cursor and the slots. -/
def Obligations.ClearEmptiesAndKeepsCursorAndSlots : Prop :=
  (∀ w : Cmd, decode w = .clear ↔ w = 0x0003) ∧
  ∀ s : State, s.ready = true → ∃ t, exec .clear s = .next t ∧ s.SameOutside t ∧
    t.count = 0 ∧ t.ridx = s.ridx ∧ t.slots = s.slots ∧
    t.regs s.active = { s.regs s.active with rstat := 1 } ∧
    emptyFlag t = true ∧ fullFlag t = false

/-- R81, with the condition Full of R91: the word of PUSH, and the push contract of Safety.lean. -/
def Obligations.PushStoresAtTheWriteIndex : Prop :=
  (∀ w : Cmd, decode w = .push ↔ w = 0x0001) ∧ PushContract .push

/-- PUSHREF has PUSH's word and PUSH's effect (43_push_pop_clear.md, 30_encoding.md §3, §5). That it is
a constructor which no word decodes to is log 11 (DEDUCED). -/
def Obligations.PushrefIsPush : Prop :=
  encode .pushref = 0x0001 ∧ (∀ w : Cmd, decode w ≠ .pushref) ∧ PushContract .pushref

/-- R83, with the condition Empty of R92: the word of POP, and the pop contract of Safety.lean. -/
def Obligations.PopReturnsTheOldestElement : Prop :=
  (∀ w : Cmd, decode w = .pop ↔ w = 0x0002) ∧ PopContract .pop

/-- R84, with the condition OutOfRange of R93: the word of PEEK i, RANGE and nothing else from
`i = count` on, and below it the element of slot `(ridx + i) mod N` in `P.rdata`. -/
def Obligations.PeekReadsTheLogicalPosition : Prop :=
  ∀ i : Idx, (∀ w : Cmd, decode w = .peek i ↔ w = BitVec.ofNat 16 (i.toNat * 256 + 4)) ∧
    ∀ s : State, s.ready = true →
      (s.count.toNat ≤ i.toNat → ∃ t, exec (.peek i) s = .next t ∧ s.SameOutside t ∧
        s.SameBuffer t ∧ t.regs s.active = { s.regs s.active with rstat := 4 }) ∧
      (i.toNat < s.count.toNat → ∃ t k v, exec (.peek i) s = .next t ∧ s.SameOutside t ∧
        s.SameBuffer t ∧ physIndex s (zext9 i) = .ok k ∧
        k.toNat = (s.ridx.toNat + i.toNat) % s.cfg.N ∧ Memory.read s.slots k.toNat = some v ∧
        t.regs s.active = { s.regs s.active with rdata := v, rstat := 1 })

/-- R85: LPUSH has PUSH's contract. -/
def Obligations.LpushHasTheContractOfPush : Prop :=
  (∀ w : Cmd, decode w = .lpush ↔ w = 0x0009) ∧ PushContract .lpush

/-- R86: LPOP has POP's contract. -/
def Obligations.LpopHasTheContractOfPop : Prop :=
  (∀ w : Cmd, decode w = .lpop ↔ w = 0x000A) ∧ PopContract .lpop

/-- R88: no sequence of commands can tell a locked command from the plain one: a run with the plain
words in place of the locked ones ends the same way. -/
def Obligations.LockedAndPlainRunsAgree : Prop :=
  ∀ (n : Nat) (s : State),
    (∀ t, run n s = .next t →
      run n s.unlock = .next t.unlock) ∧
    (∀ r, run n s = .fault r →
      run n s.unlock = .fault r) ∧
    (∀ r, run n s = .refused r →
      run n s.unlock = .refused r)

/-! ### Whole-machine rules over all commands -/

/-- R72: a command on one port never writes the other port's registers, nor the model's
configuration and pins. -/
def Obligations.CommandsKeepTheOtherPort : Prop :=
  ∀ (i : Instr) (s t : State), exec i s = .next t → s.SameOutside t

/-- R90, R95: each code is answered by its commands and from its cause, and only so; NONE is NOP's. -/
def Obligations.StatusCodesHaveTheirCauses : Prop :=
  ∀ (i : Instr) (s t : State), exec i s = .next t →
    ((t.regs s.active).rstat = 0 ↔ i = .nop) ∧
    ((t.regs s.active).rstat = 2 ↔ i.pushes = true ∧ s.count.toNat = s.cfg.N) ∧
    ((t.regs s.active).rstat = 3 ↔ i.pops = true ∧ s.count.toNat = 0) ∧
    ((t.regs s.active).rstat = 4 ↔ ∃ k : Idx, i = .peek k ∧ s.count.toNat ≤ k.toNat) ∧
    ((t.regs s.active).rstat = 5 ↔ ∃ w, i = .illegal w) ∧
    (t.regs s.active).rstat.toNat ≤ 5

/-- R89: a command that meets a condition has no effect but its status code, and the next command, on
either port, is performed as usual. -/
def Obligations.FailedCommandsHaveNoOtherEffect : Prop :=
  ∀ (i : Instr) (s t : State), exec i s = .next t → 2 ≤ (t.regs s.active).rstat.toNat →
    s.SameOutside t ∧ s.SameBuffer t ∧ (t.regs s.active).rval = (s.regs s.active).rval ∧
    (t.regs s.active).rdata = (s.regs s.active).rdata ∧
    ∀ (p : Port) (j : Instr), ∃ u, exec j (t.serve p) = .next u

/-- Which commands write which state (10_state.md, the "written by" lists of ridx, count, rval, rdata
and the slots). -/
def Obligations.EachRegisterHasItsWriters : Prop :=
  ∀ (i : Instr) (s t : State), exec i s = .next t →
    (t.ridx ≠ s.ridx → i.pops = true) ∧
    (t.count ≠ s.count → i.pushes = true ∨ i.pops = true ∨ i = .clear) ∧
    (t.slots ≠ s.slots → i.pushes = true) ∧
    ((t.regs s.active).rval ≠ (s.regs s.active).rval → i.queries = true) ∧
    ((t.regs s.active).rdata ≠ (s.regs s.active).rdata →
      i.reads = true ∧ (t.regs s.active).rstat = 1)

/-- The model's record of the slots written since reset (log 7) is what R19's I4 asks for: a push that
finds room adds the slot it writes, no other command changes it, and a reset edge empties it. -/
def Obligations.WrittenRecordsThePushesSinceReset : Prop :=
  ∀ s t : State,
    (∀ i, exec i s = .next t → i.pushes = true → s.count.toNat < s.cfg.N →
      ∃ k, writeIndex s = .ok k ∧ ∀ a, a ∈ t.written ↔ a = k.toNat ∨ a ∈ s.written) ∧
    (∀ i, exec i s = .next t → i.pushes = false ∨ s.count.toNat = s.cfg.N →
      t.written = s.written) ∧
    ((pins s).rst = true → step s = .next t → t.written = [])

/-- CLEAR, PEEK, the queries, NOP and ILLEGAL are idempotent (20_memory.md §2). -/
def Obligations.CommandsThatMoveNoElementAreIdempotent : Prop :=
  ∀ (i : Instr) (s t : State), i.pushes = false → i.pops = false → exec i s = .next t →
    exec i t = .next t

/-- R116: the value on a port's data pins in a cycle has no effect unless that port pushes in that
cycle, in a reset cycle it has none at all, and a push that finds room stores the value of its own
cycle. -/
def Obligations.DataPinsMatterOnlyToPushes : Prop :=
  ∀ (s : State) (c : CycleInput) (cs : List CycleInput) (x y : Elem),
    ((decode c.fCmd).pushes = false → step { s with inputs := { c with fWdata := x } :: cs } =
      step { s with inputs := c :: cs }) ∧
    ((decode c.bCmd).pushes = false → step { s with inputs := { c with bWdata := y } :: cs } =
      step { s with inputs := c :: cs }) ∧
    (c.rst = true → step { s with inputs := { c with fWdata := x, bWdata := y } :: cs } =
      step { s with inputs := c :: cs }) ∧
    (∀ i : Instr, i.pushes = true → s.ready = true → s.count.toNat < s.cfg.N →
      ∃ t k, exec i { s with inputs := c :: cs } = .next t ∧ writeIndex s = .ok k ∧
        Memory.read t.slots k.toNat = some (c.wdata s.active % 2 ^ s.cfg.W))

/-! ### The clock cycle -/

/-- R68: one edge performs the command B presents and then the command F presents, each as `exec` of
the command its word decodes to, and the cycle's pins are used up; with `rst` high it loads the
reset state instead, before the first reset edge and in every ready state (elsewhere BrokenStatesFault
says what happens). A fault or a refusal of either command ends the step. The model's own fields
stand for the rule's arguments: `active` for the port P of `Exec` (log 5) and `inputs` for the pins
of the cycles, used up one a step (log 4). -/
def Obligations.StepPerformsBothPortsCommands : Prop :=
  ∀ (s : State) (ib jf : Instr), configLegal s.cfg = true →
    decode (pins s).bCmd = ib → decode (pins s).fCmd = jf →
    ((pins s).rst = true → s.wasReset = false ∨ s.ready = true →
      step s = .next { resetState s with inputs := s.inputs.tail, active := .B }) ∧
    ((pins s).rst = false → ∀ s1, exec ib { s with active := .B } = .next s1 →
      (∀ s2, exec jf { s1 with active := .F } = .next s2 →
        step s = .next { s2 with inputs := s.inputs.tail, active := .B }) ∧
      (∀ r, exec jf { s1 with active := .F } = .fault r → step s = .fault r) ∧
      (∀ r, exec jf { s1 with active := .F } = .refused r → step s = .refused r)) ∧
    ((pins s).rst = false → ∀ r, exec ib { s with active := .B } = .fault r → step s = .fault r) ∧
    ((pins s).rst = false → ∀ r, exec ib { s with active := .B } = .refused r → step s = .refused r)

/-- The model's choice (log 10): after `withFetchWord` the next step performs NOP on port B and then
the placed word's command on port F, and uses up that cycle. -/
def Obligations.PlacedWordIsTheNextCommandOfPortF : Prop :=
  ∀ (s : State) (n w : Nat), s.ready = true →
    ∃ s1 s2, exec .nop ((s.withFetchWord n w).serve .B) = .next s1 ∧
      exec (decode (BitVec.ofNat 16 w)) (s1.serve .F) = .next s2 ∧
      step (s.withFetchWord n w) = .next s2.endCycle ∧ s2.endCycle.inputs = s.inputs.tail

/-- R69: B's command is performed first and F's command sees its effects; with the rule's two
examples, whose F command reads the slot B has just written (R37) and meets the buffer B has just
filled. -/
def Obligations.PortBIsPerformedFirst : Prop :=
  ∀ s : State, s.ready = true → (pins s).rst = false →
    (∃ s1 s2, exec (decode (pins s).bCmd) (s.serve .B) = .next s1 ∧
      exec (decode (pins s).fCmd) (s1.serve .F) = .next s2 ∧ step s = .next s2.endCycle) ∧
    ((pins s).bCmd = 0x0001 → (pins s).fCmd = 0x0002 → s.count.toNat = 0 →
      ∃ t, step s = .next t ∧ t.f.rdata = (pins s).bWdata % 2 ^ s.cfg.W ∧ t.f.rstat = 1 ∧
        t.b.rstat = 1 ∧ t.count = 0) ∧
    ((pins s).bCmd = 0x0001 → (pins s).fCmd = 0x0001 → s.count.toNat + 1 = s.cfg.N →
      ∃ t, step s = .next t ∧ t.b.rstat = 1 ∧ t.f.rstat = 2 ∧ t.count.toNat = s.cfg.N)

/-- The same-cycle hazards of CLEAR (70_reset_and_hazards.md §3): B PUSH with F CLEAR discards the
element, B CLEAR with F PUSH keeps only the pushed one, B POP with F CLEAR returns the oldest. -/
def Obligations.ClearAgainstTheOtherPort : Prop :=
  ∀ s : State, s.ready = true → (pins s).rst = false →
    ((pins s).bCmd = 0x0001 → (pins s).fCmd = 0x0003 → s.count.toNat < s.cfg.N →
      ∃ t, step s = .next t ∧ contents t = [] ∧ t.b.rstat = 1 ∧ t.f.rstat = 1) ∧
    ((pins s).bCmd = 0x0003 → (pins s).fCmd = 0x0001 →
      ∃ t, step s = .next t ∧ contents t = [(pins s).fWdata % 2 ^ s.cfg.W] ∧ t.b.rstat = 1 ∧
        t.f.rstat = 1) ∧
    ((pins s).bCmd = 0x0002 → (pins s).fCmd = 0x0003 → 0 < s.count.toNat →
      ∃ t, step s = .next t ∧ contents t = [] ∧ (contents s).head? = some t.b.rdata ∧
        t.b.rstat = 1 ∧ t.f.rstat = 1)

/-- The same-cycle hazards of PEEK (70_reset_and_hazards.md §3): with a B POP, position i of F's PEEK
is position i + 1 before the cycle; with a B PUSH, position `count` is the new element; with a B
CLEAR, every position is out of range. -/
def Obligations.PeekAgainstTheOtherPort : Prop :=
  ∀ (s : State) (i : Idx), s.ready = true → (pins s).rst = false → decode (pins s).fCmd = .peek i →
    ((pins s).bCmd = 0x0002 → i.toNat + 1 < s.count.toNat →
      ∃ t, step s = .next t ∧ t.f.rstat = 1 ∧ (contents s)[i.toNat + 1]? = some t.f.rdata) ∧
    ((pins s).bCmd = 0x0002 → i.toNat + 1 = s.count.toNat →
      ∃ t, step s = .next t ∧ t.f.rstat = 4 ∧ t.f.rdata = s.f.rdata) ∧
    ((pins s).bCmd = 0x0001 → i.toNat = s.count.toNat → s.count.toNat < s.cfg.N →
      ∃ t, step s = .next t ∧ t.f.rstat = 1 ∧ t.f.rdata = (pins s).bWdata % 2 ^ s.cfg.W) ∧
    ((pins s).bCmd = 0x0003 →
      ∃ t, step s = .next t ∧ t.f.rstat = 4 ∧ t.f.rdata = s.f.rdata)

/-! ### Reset -/

/-- R105: a reset edge loads the reset state, from any state before the first reset edge and from every
ready state, and performs no command; the slots are kept.
In a state that breaks R19's invariants BrokenStatesFault says what happens. -/
def Obligations.ResetLoadsTheResetState : Prop :=
  ∀ s : State, configLegal s.cfg = true → s.wasReset = false ∨ s.ready = true → (pins s).rst = true →
    ∃ t, step s = .next t ∧ t.ridx = 0 ∧ t.count = 0 ∧
      t.f = { rstat := 0, rval := 0, rdata := 0 } ∧ t.b = { rstat := 0, rval := 0, rdata := 0 } ∧
      t.slots = s.slots ∧ t.cfg = s.cfg ∧ t.wasReset = true ∧ t.inputs = s.inputs.tail

/-- R107: while reset is held, from any state before the first reset edge and from every ready state,
the block stays in the reset state; the cycle performed next is the first one after it; the status
outputs show the reset state. -/
def Obligations.ResetHeldLoadsTheResetStateAgain : Prop :=
  ∀ (n : Nat) (s : State), configLegal s.cfg = true → s.wasReset = false ∨ s.ready = true →
    (∀ k ≤ n, (s.inputs.getD k idleInput).rst = true) →
    ∃ t, run (n + 1) s = .next t ∧ t.ridx = 0 ∧ t.count = 0 ∧
      t.f = { rstat := 0, rval := 0, rdata := 0 } ∧ t.b = { rstat := 0, rval := 0, rdata := 0 } ∧
      t.slots = s.slots ∧ t.inputs = s.inputs.drop (n + 1) ∧
      ∃ o, statusOutputs t = .next o ∧ o.empty = true ∧ o.full = false ∧ o.count = 0 ∧
        o.ridx = 0 ∧ o.widx = 0 ∧ o.cap.toNat = s.cfg.N

/-- The state after reset, in every legal configuration, has R106's register values and the invariant.
That no slot holds a value and no cycle is pending is the model's choice (log 4, log 8), as is the
configuration of `State.reset` (log 2). -/
def Obligations.ResetStateHasItsValuesAndTheInvariant : Prop :=
  (∀ c : Config, configLegal c = true → (State.resetWith c).inv = true ∧
    ∀ r : Reg, (State.resetWith c).readReg r = 0) ∧ State.reset.inv = true

/-- A reset edge establishes the invariant from any state whose slots are shaped as slots are, the
power-up state among them (log 6). -/
def Obligations.ResetEstablishesTheInvariant : Prop :=
  ∀ s t : State, configLegal s.cfg = true → Memory.wf s.slots = true →
    Memory.fits s.cfg s.slots = true → (pins s).rst = true → step s = .next t → t.inv = true

/-! ### Stops -/

/-- R109: before the first reset edge a command has no meaning: every command and every edge with
`rst` low is refused, whatever the state. That the outputs are refused too is log 15. -/
def Obligations.CommandsBeforeResetAreRefused : Prop :=
  ∀ s : State, configLegal s.cfg = true → s.wasReset = false →
    (∀ i, exec i s = .refused .beforeFirstReset) ∧
    ((pins s).rst = false → step s = .refused .beforeFirstReset) ∧
    statusOutputs s = .refused .beforeFirstReset ∧ outputs s = .refused .beforeFirstReset

/-- N = 0, N above 255 and W = 0 are refused as configurations, in every state, also with `rst` high
(00_scope.md §4). That the outputs are refused too is log 16. -/
def Obligations.IllegalConfigurationsAreRefused : Prop :=
  ∀ s : State, s.cfg.N = 0 ∨ 255 < s.cfg.N ∨ s.cfg.W = 0 →
    (∀ i, exec i s = .refused .illegalConfiguration) ∧ step s = .refused .illegalConfiguration ∧
    statusOutputs s = .refused .illegalConfiguration ∧ outputs s = .refused .illegalConfiguration

/-- A state that breaks I1, I2 or I4, or holds an rstat of 6 or 7, is a fault and never a value
(10_state.md §2, 93_implementation_defined.md U8, U10), for the commands, for every clock edge, with
`rst` high too, and for the outputs (log 16). That a slot has been written since reset is read off the
record of log 7. -/
def Obligations.BrokenStatesFault : Prop :=
  ∀ s : State, configLegal s.cfg = true → s.wasReset = true →
    (s.cfg.N < s.count.toNat ∨ s.cfg.N ≤ s.ridx.toNat ∨
      (∃ k < s.count.toNat, Memory.read s.slots ((s.ridx.toNat + k) % s.cfg.N) = none) ∨
      (∃ k < s.count.toNat, (s.ridx.toNat + k) % s.cfg.N ∉ s.written) ∨
      5 < s.f.rstat.toNat ∨ 5 < s.b.rstat.toNat) →
    (∀ i, exec i s = .fault .brokenInvariant) ∧
    step s = .fault .brokenInvariant ∧
    statusOutputs s = .fault .brokenInvariant ∧ outputs s = .fault .brokenInvariant

/-- A slot that holds no value faults on a read, and a number that names no slot faults on a read and
on a write (10_state.md §7, 20_memory.md §1). -/
def Obligations.SlotAccessesFaultOutsideTheStoredSlots : Prop :=
  ∀ (s : State) (k : Idx) (v : Elem),
    (s.cfg.N ≤ k.toNat → memRead s k = .error .noSuchSlot ∧ memWrite s k v = .error .noSuchSlot) ∧
    (k.toNat < s.cfg.N → Memory.read s.slots k.toNat = none → memRead s k = .error .slotNoValue) ∧
    (k.toNat < s.cfg.N → ∃ t, memWrite s k v = .ok t ∧ memRead t k = .ok v)

/-! ### Invariants and the FIFO laws -/

/-- Every step keeps the invariant: R19's I1, I2 and I4 (every valid slot holds a value and has been
written by a push since reset, log 7), the legal status codes, the widths of the registers and the
slots, and the canonical form of the slot lists. -/
def Obligations.StepKeepsTheInvariant : Prop :=
  ∀ s t : State, s.inv = true → step s = .next t → t.inv = true

/-- The registers of R25's table stay within the widths it gives. -/
def Obligations.RegistersStayWithinTheirWidths : Prop :=
  ∀ (s t : State) (r : Reg), s.inv = true → step s = .next t → t.readReg r < 2 ^ r.width t.cfg

/-- The block never stops by its own step, and a step never waits: after `n` edges, with any commands
and any reset presented, it is in a state in which commands are performed, and exactly `n` cycles of
pins are used up (41_command_cycle.md §2, §5). -/
def Obligations.BlockNeverStops : Prop :=
  ∀ (n : Nat) (s : State), s.ready = true →
    ∃ t, run n s = .next t ∧ t.ready = true ∧ t.cfg = s.cfg ∧
      t.inputs = s.inputs.drop n

/-- The FIFO abstraction (40_index_arithmetic.md §5): every command acts on the queue `contents` and on
its port's registers exactly as the source's operation on a plain queue of capacity N. -/
def Obligations.CommandsRefineThePlainQueue : Prop :=
  ∀ (i : Instr) (s : State), s.ready = true →
    (contents s).length = s.count.toNat ∧
    ∃ t, exec i s = .next t ∧ s.SameOutside t ∧
      (contents t, t.regs s.active) =
        fifoCommand s.cfg.N s.presented i (contents s) (s.regs s.active)

/-- FIFO order over every run (20_memory.md §4): the elements there were, followed by those pushed, are
the elements popped or dropped, in the same order, followed by those there are. -/
def Obligations.RunsKeepFifoOrder : Prop :=
  ∀ (n : Nat) (s t : State), s.ready = true → run n s = .next t →
    contents s ++ pushedOf (runEvents n s) = removedOf (runEvents n s) ++ contents t

/-- Stale slots are hidden (10_state.md §8): two runs from states that differ only in stale slots, their
contents or the record that they were written (log 7), drive the same outputs and hold the same
elements. -/
def Obligations.StaleSlotsAreHidden : Prop :=
  ∀ (n : Nat) (s t : State) (m : Memory) (w : SlotSet), s.ready = true →
    (∀ k < s.count.toNat, Memory.read m ((s.ridx.toNat + k) % s.cfg.N) =
      Memory.read s.slots ((s.ridx.toNat + k) % s.cfg.N) ∧ (s.ridx.toNat + k) % s.cfg.N ∈ w) →
    run n s = .next t →
    ∃ t', run n { s with slots := m, written := w } = .next t' ∧
      outputs t' = outputs t ∧ contents t' = contents t
end

