-- ==== Sys2Proof/Laws/Decode.lean ====
section
/-! SUPPORT. The fields of a command word, and when it is legal. -/

namespace Sys2Proof

/-- A word is its three fields (R45). -/
theorem word_eq_fields (w : Cmd) : w = (idxField w ++ rsvField w ++ opField w : BitVec 16) := by
  simp only [idxField, rsvField, opField]
  ext i hi
  simp
  grind

theorem legalWord_iff (w : Cmd) : legalWord w = true ↔
    rsvField w = 0 ∧ (opField w).toNat ≤ 10 ∧ (opField w = 4 ∨ idxField w = 0) := by
  simp [legalWord, BitVec.le_def, and_assoc]

/-- The reasons of rejection are none exactly for a legal word. -/
theorem rejectReasons_nil_iff (w : Cmd) : rejectReasons w = [] ↔ legalWord w = true := by
  rw [legalWord_iff]
  simp only [rejectReasons, List.append_eq_nil_iff, ite_eq_left_iff, List.cons_ne_nil, imp_false,
    not_not, BitVec.le_def, show (0xA : BitVec 4).toNat = 10 from rfl]
  tauto

theorem decode_not_legal {w : Cmd} (h : legalWord w = false) : decode w = .illegal w := by
  simp [decode, h]


end Sys2Proof
end

