-- ==== Sys2Proof/Laws/Index.lean ====
section
/-! SUPPORT. The index arithmetic: one lemma per function of Machine/Operands.lean. -/

namespace Sys2Proof.Machine

@[simp] theorem zext9_toNat (v : Idx) : (zext9 v).toNat = v.toNat := by
  have := v.isLt
  simp only [zext9, BitVec.toNat_setWidth]
  omega

theorem capSum_toNat {c : Config} (h : c.N ≤ 255) : (capSum c).toNat = c.N := by
  simp only [capSum, BitVec.toNat_ofNat]
  omega

theorem capIdx_toNat {c : Config} (h : c.N ≤ 255) : (capIdx c).toNat = c.N := by
  simp only [capIdx, BitVec.toNat_ofNat]
  omega

theorem configLegal_iff {c : Config} :
    configLegal c = true ↔ 1 ≤ c.N ∧ c.N ≤ 255 ∧ 1 ≤ c.W := by
  simp [configLegal, and_assoc]

theorem lowW_lt (c : Config) (v : Elem) : lowW c v < 2 ^ c.W := Nat.mod_lt _ (by positivity)

/-- All that `wrap` can do on a legal configuration: the residue below `2N`, a fault from there. -/
theorem wrap_eq {c : Config} (h : configLegal c = true) (a : Sum) :
    wrap c a = if a.toNat < 2 * c.N then .ok (BitVec.ofNat 8 (a.toNat % c.N))
      else .error .wrapOutOfRange := by
  obtain ⟨h1, h2, -⟩ := configLegal_iff.1 h
  have ha := a.isLt
  have hc : (capSum c).toNat = c.N := capSum_toNat h2
  unfold wrap
  by_cases h3 : 2 * c.N ≤ a.toNat
  · rw [if_pos h3, if_neg (by omega)]
  have hle : capSum c ≤ a ↔ c.N ≤ a.toNat := by rw [BitVec.le_def, hc]
  rw [if_neg h3, if_pos (show a.toNat < 2 * c.N by omega)]
  by_cases h4 : c.N ≤ a.toNat
  · have hm : a.toNat % c.N = a.toNat - c.N := by
      rw [Nat.mod_eq_sub_mod h4, Nat.mod_eq_of_lt (by omega)]
    rw [if_pos (hle.2 h4)]
    congr 1
    apply BitVec.eq_of_toNat_eq
    simp only [low8, BitVec.toNat_setWidth, BitVec.toNat_sub, BitVec.toNat_ofNat, hc, hm]
    omega
  · have hm : a.toNat % c.N = a.toNat := Nat.mod_eq_of_lt (by omega)
    rw [if_neg (mt hle.1 h4)]
    congr 1
    apply BitVec.eq_of_toNat_eq
    simp only [low8, BitVec.toNat_setWidth, BitVec.toNat_ofNat, hm]

/-- `wrap` below `2N` is the residue modulo N. -/
theorem wrap_ok {c : Config} (h : configLegal c = true) {a : Sum} (ha : a.toNat < 2 * c.N) :
    ∃ k, wrap c a = .ok k ∧ k.toNat = a.toNat % c.N ∧ k.toNat < c.N := by
  obtain ⟨h1, h2, -⟩ := configLegal_iff.1 h
  have hlt : a.toNat % c.N < c.N := Nat.mod_lt _ (by omega)
  refine ⟨_, by rw [wrap_eq h, if_pos ha], ?_, ?_⟩ <;> rw [BitVec.toNat_ofNat] <;> omega

/-- The write index is the source's `(ridx + count) mod N`. -/
theorem writeIndex_ok {s : State} (h : configLegal s.cfg = true) (h1 : s.ridx.toNat < s.cfg.N)
    (h2 : s.count.toNat ≤ s.cfg.N) :
    ∃ k, writeIndex s = .ok k ∧ k.toNat = slotOf s s.count.toNat ∧ k.toNat < s.cfg.N := by
  obtain ⟨-, h4, -⟩ := configLegal_iff.1 h
  have ha : (zext9 s.ridx + zext9 s.count).toNat = s.ridx.toNat + s.count.toNat := by
    simp only [BitVec.toNat_add, zext9_toNat]
    omega
  have := wrap_ok h (a := zext9 s.ridx + zext9 s.count) (by omega)
  rwa [ha] at this

/-- The physical index of a logical position below N. -/
theorem physIndex_ok {s : State} (h : configLegal s.cfg = true) (h1 : s.ridx.toNat < s.cfg.N)
    {i : Sum} (h2 : i.toNat < s.cfg.N) :
    ∃ k, physIndex s i = .ok k ∧ k.toNat = slotOf s i.toNat ∧ k.toNat < s.cfg.N := by
  obtain ⟨-, h4, -⟩ := configLegal_iff.1 h
  have ha : (zext9 s.ridx + i).toNat = s.ridx.toNat + i.toNat := by
    simp only [BitVec.toNat_add, zext9_toNat]
    omega
  have := wrap_ok h (a := zext9 s.ridx + i) (by omega)
  rwa [ha] at this

/-- The advance of a cursor is the successor modulo N. -/
theorem advance_ok {c : Config} (h : configLegal c = true) {r : Idx} (h1 : r.toNat < c.N) :
    ∃ k, advance c r = .ok k ∧ k.toNat = (r.toNat + 1) % c.N ∧ k.toNat < c.N := by
  obtain ⟨h0, h4, -⟩ := configLegal_iff.1 h
  have ha : (zext9 r + 1).toNat = r.toNat + 1 := by
    simp only [BitVec.toNat_add, zext9_toNat]
    rw [show (1 : Sum).toNat = 1 from rfl]
    omega
  have := wrap_ok h (a := zext9 r + 1) (by omega)
  rwa [ha] at this

/-- Distinct logical positions below N are distinct slots. -/
theorem slotOf_inj {s : State} {i j : Nat} (hi : i < s.cfg.N) (hj : j < s.cfg.N)
    (h : slotOf s i = slotOf s j) : i = j := by
  have h' : s.ridx.toNat + i ≡ s.ridx.toNat + j [MOD s.cfg.N] := h
  have := Nat.ModEq.add_left_cancel' _ h'
  unfold Nat.ModEq at this
  rwa [Nat.mod_eq_of_lt hi, Nat.mod_eq_of_lt hj] at this

/-- The slot of the oldest element is the read cursor. -/
theorem slotOf_zero {s : State} (h : s.ridx.toNat < s.cfg.N) : slotOf s 0 = s.ridx.toNat := by
  simp [slotOf, Nat.mod_eq_of_lt h]

end Sys2Proof.Machine
end

