-- ==== Sys2Proof/Laws/Memory.lean ====
section
/-! SUPPORT. The slot storage: a read after a write, and the canonical form; sets of slots. -/

namespace Sys2Proof.Machine

@[simp] theorem Memory.read_nil (k : Nat) : Memory.read [] k = none := rfl

/-- A slot reads as the value last written to it; every other slot is left alone. -/
theorem Memory.read_write (m : Memory) (k : Nat) (v : Elem) (j : Nat) :
    Memory.read (Memory.write m k v) j = if j = k then some v else Memory.read m j := by
  induction m with
  | nil => simp [Memory.write, Memory.read, eq_comm]
  | cons c m ih =>
    obtain ⟨a, x⟩ := c
    simp only [Memory.write]
    split
    · simp [Memory.read, eq_comm]
    · split
      · rename_i h1 h2
        subst h2
        simp only [Memory.read]
        by_cases h : k = j <;> simp [h, eq_comm]
      · rename_i h1 h2
        simp only [Memory.read, ih]
        by_cases h : a = j
        · have : j ≠ k := by omega
          simp [h, this]
        · simp [h]

@[simp] theorem Memory.read_write_same (m : Memory) (k : Nat) (v : Elem) :
    Memory.read (Memory.write m k v) k = some v := by simp [Memory.read_write]

theorem Memory.read_write_other (m : Memory) {k j : Nat} (v : Elem) (h : j ≠ k) :
    Memory.read (Memory.write m k v) j = Memory.read m j := by simp [Memory.read_write, h]

/-- The entries after a write are the written one and old ones. -/
theorem Memory.mem_write {m : Memory} {k : Nat} {v : Elem} {c : Nat × Elem}
    (h : c ∈ Memory.write m k v) : c = (k, v) ∨ c ∈ m := by
  induction m with
  | nil => simpa [Memory.write] using h
  | cons d m ih =>
    obtain ⟨a, x⟩ := d
    simp only [Memory.write] at h
    split at h
    · simpa using h
    · split at h
      · rcases List.mem_cons.1 h with h | h
        · exact .inl h
        · exact .inr (List.mem_cons_of_mem _ h)
      · rcases List.mem_cons.1 h with h | h
        · exact .inr (h ▸ List.mem_cons_self)
        · exact (ih h).imp id (List.mem_cons_of_mem _)

theorem Memory.above_iff {k : Nat} {m : Memory} :
    Memory.above k m = true ↔ ∀ c ∈ m, k < c.1 := by simp [Memory.above]

/-- A write keeps the canonical form. -/
theorem Memory.write_wf {m : Memory} (k : Nat) (v : Elem) (h : Memory.wf m = true) :
    Memory.wf (Memory.write m k v) = true := by
  induction m with
  | nil => rfl
  | cons d m ih =>
    obtain ⟨a, x⟩ := d
    simp only [Memory.wf, Bool.and_eq_true, Memory.above_iff] at h
    simp only [Memory.write]
    split
    · rename_i hk
      simp only [Memory.wf, Bool.and_eq_true, Memory.above_iff]
      refine ⟨fun c hc => ?_, h⟩
      rcases List.mem_cons.1 hc with rfl | hc
      · exact hk
      · exact lt_trans hk (h.1 c hc)
    · split
      · rename_i _ hk
        subst hk
        simpa only [Memory.wf, Bool.and_eq_true, Memory.above_iff] using h
      · rename_i h1 h2
        simp only [Memory.wf, Bool.and_eq_true, Memory.above_iff]
        refine ⟨fun c hc => ?_, ih h.2⟩
        rcases Memory.mem_write hc with rfl | hc
        · show a < k
          omega
        · exact h.1 c hc

/-- A write to an existing slot, of a value of W bits, keeps the slots within their widths. -/
theorem Memory.write_fits {c : Config} {m : Memory} {k : Nat} {v : Elem} (hk : k < c.N)
    (hv : v < 2 ^ c.W) (h : Memory.fits c m = true) :
    Memory.fits c (Memory.write m k v) = true := by
  simp only [Memory.fits, List.all_eq_true, Bool.and_eq_true, decide_eq_true_eq] at h ⊢
  intro e he
  rcases Memory.mem_write he with rfl | he
  · exact ⟨hk, hv⟩
  · exact h e he

/-- What a slot holds is one of its entries. -/
theorem Memory.mem_of_read {m : Memory} {k : Nat} {v : Elem} (h : Memory.read m k = some v) :
    (k, v) ∈ m := by
  induction m with
  | nil => cases h
  | cons d m ih =>
    obtain ⟨a, x⟩ := d
    simp only [Memory.read] at h
    split at h
    · rename_i ha
      cases h
      cases ha
      exact List.mem_cons_self
    · exact List.mem_cons_of_mem _ (ih h)

/-- A value read is within its width. -/
theorem Memory.read_lt {c : Config} {m : Memory} {k : Nat} {v : Elem}
    (hf : Memory.fits c m = true) (h : Memory.read m k = some v) : k < c.N ∧ v < 2 ^ c.W := by
  simp only [Memory.fits, List.all_eq_true, Bool.and_eq_true, decide_eq_true_eq] at hf
  exact hf _ (Memory.mem_of_read h)

/-- A memory in canonical form is determined by what its slots read as. -/
theorem Memory.ext_of_wf {m n : Memory} (hm : Memory.wf m = true) (hn : Memory.wf n = true)
    (h : ∀ k, Memory.read m k = Memory.read n k) : m = n := by
  induction m generalizing n with
  | nil =>
    cases n with
    | nil => rfl
    | cons d n => simpa [Memory.read] using h d.1
  | cons d m ih =>
    obtain ⟨a, x⟩ := d
    cases n with
    | nil => simpa [Memory.read] using h a
    | cons e n =>
      obtain ⟨b, y⟩ := e
      simp only [Memory.wf, Bool.and_eq_true, Memory.above_iff] at hm hn
      have hab : a = b := by
        rcases lt_trichotomy a b with hlt | heq | hgt
        · have ha := h a
          simp only [Memory.read, if_true] at ha
          rw [if_neg (by omega)] at ha
          exact absurd (hn.1 _ (Memory.mem_of_read ha.symm)) (by simp; omega)
        · exact heq
        · have hb := h b
          simp only [Memory.read, if_true] at hb
          rw [if_neg (by omega)] at hb
          exact absurd (hm.1 _ (Memory.mem_of_read hb)) (by simp; omega)
      subst hab
      have hxy : x = y := by simpa [Memory.read] using h a
      subst hxy
      congr 1
      refine ih hm.2 hn.2 fun k => ?_
      have hk := h k
      simp only [Memory.read] at hk
      by_cases hak : a = k
      · have none_of {l : Memory} (hl : ∀ c ∈ l, a < c.1) : Memory.read l k = none := by
          cases hr : Memory.read l k with
          | none => rfl
          | some v => exact absurd (hl _ (Memory.mem_of_read hr)) (by simp; omega)
        rw [none_of hm.1, none_of hn.1]
      · simpa [hak] using hk

/-- The slot storage of the state after reset is in canonical form. -/
theorem resetWith_slots_wf (c : Config) : Memory.wf (State.resetWith c).slots = true := rfl

/-- `MemWrite` keeps the canonical form. -/
theorem memWrite_wf {s t : State} {k : Idx} {v : Elem} (h : memWrite s k v = .ok t)
    (hs : Memory.wf s.slots = true) : Memory.wf t.slots = true := by
  unfold memWrite at h
  split at h
  · cases h
  · cases h
    exact Memory.write_wf _ _ hs

/-! ### Sets of slots -/

/-- A slot is in the set after an insertion when it was inserted or in it before. -/
@[simp] theorem SlotSet.mem_insert {w : SlotSet} {k a : Nat} :
    a ∈ SlotSet.insert w k ↔ a = k ∨ a ∈ w := by
  induction w with
  | nil => simp [SlotSet.insert]
  | cons b w ih =>
    simp only [SlotSet.insert]
    split
    · simp
    · split
      · rename_i _ h
        simp [h]
      · simp only [List.mem_cons, ih]
        exact or_left_comm

/-- An insertion keeps the canonical form. -/
theorem SlotSet.insert_wf {w : SlotSet} (k : Nat) (h : SlotSet.wf w = true) :
    SlotSet.wf (SlotSet.insert w k) = true := by
  simp only [SlotSet.wf, decide_eq_true_eq] at h ⊢
  induction w with
  | nil => exact List.pairwise_singleton _ _
  | cons b w ih =>
    have hb := (List.pairwise_cons.1 h).1
    simp only [SlotSet.insert]
    split
    · rename_i hk
      refine List.pairwise_cons.2 ⟨fun a ha => ?_, h⟩
      rcases List.mem_cons.1 ha with rfl | ha
      · exact hk
      · exact lt_trans hk (hb a ha)
    · split
      · exact h
      · refine List.pairwise_cons.2 ⟨fun a ha => ?_, ih (List.pairwise_cons.1 h).2⟩
        rcases SlotSet.mem_insert.1 ha with rfl | ha
        · omega
        · exact hb a ha

/-- An insertion of an existing slot keeps the set within the slots. -/
theorem SlotSet.insert_fits {c : Config} {w : SlotSet} {k : Nat} (hk : k < c.N)
    (h : SlotSet.fits c w = true) : SlotSet.fits c (SlotSet.insert w k) = true := by
  simp only [SlotSet.fits, List.all_eq_true, decide_eq_true_eq, SlotSet.mem_insert] at h ⊢
  rintro a (rfl | ha)
  · exact hk
  · exact h a ha

end Sys2Proof.Machine
end

