-- ==== Sys2Proof/Laws/State.lean ====
section
/-! SUPPORT. One lemma per field per state update. -/

namespace Sys2Proof.Machine

/-! ### setRidx -/

@[simp] theorem State.setRidx_cfg (s : State) (v : Idx) :
    (s.setRidx v).cfg = s.cfg := rfl
@[simp] theorem State.setRidx_wasReset (s : State) (v : Idx) :
    (s.setRidx v).wasReset = s.wasReset := rfl
@[simp] theorem State.setRidx_ridx (s : State) (v : Idx) :
    (s.setRidx v).ridx = v := rfl
@[simp] theorem State.setRidx_count (s : State) (v : Idx) :
    (s.setRidx v).count = s.count := rfl
@[simp] theorem State.setRidx_slots (s : State) (v : Idx) :
    (s.setRidx v).slots = s.slots := rfl
@[simp] theorem State.setRidx_written (s : State) (v : Idx) :
    (s.setRidx v).written = s.written := rfl
@[simp] theorem State.setRidx_f (s : State) (v : Idx) :
    (s.setRidx v).f = s.f := rfl
@[simp] theorem State.setRidx_b (s : State) (v : Idx) :
    (s.setRidx v).b = s.b := rfl
@[simp] theorem State.setRidx_active (s : State) (v : Idx) :
    (s.setRidx v).active = s.active := rfl
@[simp] theorem State.setRidx_inputs (s : State) (v : Idx) :
    (s.setRidx v).inputs = s.inputs := rfl
@[simp] theorem State.setRidx_regs (s : State) (v : Idx) (q : Port) :
    (s.setRidx v).regs q = s.regs q := by cases q <;> rfl

/-! ### setCount -/

@[simp] theorem State.setCount_cfg (s : State) (v : Idx) :
    (s.setCount v).cfg = s.cfg := rfl
@[simp] theorem State.setCount_wasReset (s : State) (v : Idx) :
    (s.setCount v).wasReset = s.wasReset := rfl
@[simp] theorem State.setCount_ridx (s : State) (v : Idx) :
    (s.setCount v).ridx = s.ridx := rfl
@[simp] theorem State.setCount_count (s : State) (v : Idx) :
    (s.setCount v).count = v := rfl
@[simp] theorem State.setCount_slots (s : State) (v : Idx) :
    (s.setCount v).slots = s.slots := rfl
@[simp] theorem State.setCount_written (s : State) (v : Idx) :
    (s.setCount v).written = s.written := rfl
@[simp] theorem State.setCount_f (s : State) (v : Idx) :
    (s.setCount v).f = s.f := rfl
@[simp] theorem State.setCount_b (s : State) (v : Idx) :
    (s.setCount v).b = s.b := rfl
@[simp] theorem State.setCount_active (s : State) (v : Idx) :
    (s.setCount v).active = s.active := rfl
@[simp] theorem State.setCount_inputs (s : State) (v : Idx) :
    (s.setCount v).inputs = s.inputs := rfl
@[simp] theorem State.setCount_regs (s : State) (v : Idx) (q : Port) :
    (s.setCount v).regs q = s.regs q := by cases q <;> rfl

/-! ### storeSlot -/

@[simp] theorem State.storeSlot_cfg (s : State) (k : Nat) (v : Elem) :
    (s.storeSlot k v).cfg = s.cfg := rfl
@[simp] theorem State.storeSlot_wasReset (s : State) (k : Nat) (v : Elem) :
    (s.storeSlot k v).wasReset = s.wasReset := rfl
@[simp] theorem State.storeSlot_ridx (s : State) (k : Nat) (v : Elem) :
    (s.storeSlot k v).ridx = s.ridx := rfl
@[simp] theorem State.storeSlot_count (s : State) (k : Nat) (v : Elem) :
    (s.storeSlot k v).count = s.count := rfl
@[simp] theorem State.storeSlot_slots (s : State) (k : Nat) (v : Elem) :
    (s.storeSlot k v).slots = Memory.write s.slots k v := rfl
@[simp] theorem State.storeSlot_written (s : State) (k : Nat) (v : Elem) :
    (s.storeSlot k v).written = SlotSet.insert s.written k := rfl
@[simp] theorem State.storeSlot_f (s : State) (k : Nat) (v : Elem) :
    (s.storeSlot k v).f = s.f := rfl
@[simp] theorem State.storeSlot_b (s : State) (k : Nat) (v : Elem) :
    (s.storeSlot k v).b = s.b := rfl
@[simp] theorem State.storeSlot_active (s : State) (k : Nat) (v : Elem) :
    (s.storeSlot k v).active = s.active := rfl
@[simp] theorem State.storeSlot_inputs (s : State) (k : Nat) (v : Elem) :
    (s.storeSlot k v).inputs = s.inputs := rfl
@[simp] theorem State.storeSlot_regs (s : State) (k : Nat) (v : Elem) (q : Port) :
    (s.storeSlot k v).regs q = s.regs q := by cases q <;> rfl

/-! ### serve -/

@[simp] theorem State.serve_cfg (s : State) (p : Port) :
    (s.serve p).cfg = s.cfg := rfl
@[simp] theorem State.serve_wasReset (s : State) (p : Port) :
    (s.serve p).wasReset = s.wasReset := rfl
@[simp] theorem State.serve_ridx (s : State) (p : Port) :
    (s.serve p).ridx = s.ridx := rfl
@[simp] theorem State.serve_count (s : State) (p : Port) :
    (s.serve p).count = s.count := rfl
@[simp] theorem State.serve_slots (s : State) (p : Port) :
    (s.serve p).slots = s.slots := rfl
@[simp] theorem State.serve_written (s : State) (p : Port) :
    (s.serve p).written = s.written := rfl
@[simp] theorem State.serve_f (s : State) (p : Port) :
    (s.serve p).f = s.f := rfl
@[simp] theorem State.serve_b (s : State) (p : Port) :
    (s.serve p).b = s.b := rfl
@[simp] theorem State.serve_active (s : State) (p : Port) :
    (s.serve p).active = p := rfl
@[simp] theorem State.serve_inputs (s : State) (p : Port) :
    (s.serve p).inputs = s.inputs := rfl
@[simp] theorem State.serve_regs (s : State) (p : Port) (q : Port) :
    (s.serve p).regs q = s.regs q := by cases q <;> rfl

/-! ### endCycle -/

@[simp] theorem State.endCycle_cfg (s : State) :
    (s.endCycle).cfg = s.cfg := rfl
@[simp] theorem State.endCycle_wasReset (s : State) :
    (s.endCycle).wasReset = s.wasReset := rfl
@[simp] theorem State.endCycle_ridx (s : State) :
    (s.endCycle).ridx = s.ridx := rfl
@[simp] theorem State.endCycle_count (s : State) :
    (s.endCycle).count = s.count := rfl
@[simp] theorem State.endCycle_slots (s : State) :
    (s.endCycle).slots = s.slots := rfl
@[simp] theorem State.endCycle_written (s : State) :
    (s.endCycle).written = s.written := rfl
@[simp] theorem State.endCycle_f (s : State) :
    (s.endCycle).f = s.f := rfl
@[simp] theorem State.endCycle_b (s : State) :
    (s.endCycle).b = s.b := rfl
@[simp] theorem State.endCycle_active (s : State) :
    (s.endCycle).active = .B := rfl
@[simp] theorem State.endCycle_inputs (s : State) :
    (s.endCycle).inputs = s.inputs.tail := rfl
@[simp] theorem State.endCycle_regs (s : State) (q : Port) :
    (s.endCycle).regs q = s.regs q := by cases q <;> rfl

/-! ### resetState -/

@[simp] theorem State.resetState_cfg (s : State) :
    (resetState s).cfg = s.cfg := rfl
@[simp] theorem State.resetState_wasReset (s : State) :
    (resetState s).wasReset = true := rfl
@[simp] theorem State.resetState_ridx (s : State) :
    (resetState s).ridx = 0 := rfl
@[simp] theorem State.resetState_count (s : State) :
    (resetState s).count = 0 := rfl
@[simp] theorem State.resetState_slots (s : State) :
    (resetState s).slots = s.slots := rfl
@[simp] theorem State.resetState_written (s : State) :
    (resetState s).written = [] := rfl
@[simp] theorem State.resetState_f (s : State) :
    (resetState s).f = PortRegs.reset := rfl
@[simp] theorem State.resetState_b (s : State) :
    (resetState s).b = PortRegs.reset := rfl
@[simp] theorem State.resetState_active (s : State) :
    (resetState s).active = s.active := rfl
@[simp] theorem State.resetState_inputs (s : State) :
    (resetState s).inputs = s.inputs := rfl
@[simp] theorem State.resetState_regs (s : State) (q : Port) :
    (resetState s).regs q = PortRegs.reset := by cases q <;> rfl

/-! ### withFetchWord -/

@[simp] theorem State.withFetchWord_cfg (s : State) (n w : Nat) :
    (s.withFetchWord n w).cfg = s.cfg := rfl
@[simp] theorem State.withFetchWord_wasReset (s : State) (n w : Nat) :
    (s.withFetchWord n w).wasReset = s.wasReset := rfl
@[simp] theorem State.withFetchWord_ridx (s : State) (n w : Nat) :
    (s.withFetchWord n w).ridx = s.ridx := rfl
@[simp] theorem State.withFetchWord_count (s : State) (n w : Nat) :
    (s.withFetchWord n w).count = s.count := rfl
@[simp] theorem State.withFetchWord_slots (s : State) (n w : Nat) :
    (s.withFetchWord n w).slots = s.slots := rfl
@[simp] theorem State.withFetchWord_written (s : State) (n w : Nat) :
    (s.withFetchWord n w).written = s.written := rfl
@[simp] theorem State.withFetchWord_f (s : State) (n w : Nat) :
    (s.withFetchWord n w).f = s.f := rfl
@[simp] theorem State.withFetchWord_b (s : State) (n w : Nat) :
    (s.withFetchWord n w).b = s.b := rfl
@[simp] theorem State.withFetchWord_active (s : State) (n w : Nat) :
    (s.withFetchWord n w).active = s.active := rfl
@[simp] theorem State.withFetchWord_inputs (s : State) (n w : Nat) :
    (s.withFetchWord n w).inputs = { pins s with rst := false, fCmd := BitVec.ofNat 16 w, bCmd := 0x0000 } :: s.inputs.tail := rfl
@[simp] theorem State.withFetchWord_regs (s : State) (n w : Nat) (q : Port) :
    (s.withFetchWord n w).regs q = s.regs q := by cases q <;> rfl

/-! ### setRegs -/

@[simp] theorem State.setRegs_cfg (s : State) (p : Port) (r : PortRegs) :
    (s.setRegs p r).cfg = s.cfg := by cases p <;> rfl
@[simp] theorem State.setRegs_wasReset (s : State) (p : Port) (r : PortRegs) :
    (s.setRegs p r).wasReset = s.wasReset := by cases p <;> rfl
@[simp] theorem State.setRegs_ridx (s : State) (p : Port) (r : PortRegs) :
    (s.setRegs p r).ridx = s.ridx := by cases p <;> rfl
@[simp] theorem State.setRegs_count (s : State) (p : Port) (r : PortRegs) :
    (s.setRegs p r).count = s.count := by cases p <;> rfl
@[simp] theorem State.setRegs_slots (s : State) (p : Port) (r : PortRegs) :
    (s.setRegs p r).slots = s.slots := by cases p <;> rfl
@[simp] theorem State.setRegs_written (s : State) (p : Port) (r : PortRegs) :
    (s.setRegs p r).written = s.written := by cases p <;> rfl
@[simp] theorem State.setRegs_active (s : State) (p : Port) (r : PortRegs) :
    (s.setRegs p r).active = s.active := by cases p <;> rfl
@[simp] theorem State.setRegs_inputs (s : State) (p : Port) (r : PortRegs) :
    (s.setRegs p r).inputs = s.inputs := by cases p <;> rfl

/-! ### setRstat -/

@[simp] theorem State.setRstat_cfg (s : State) (v : Stat) :
    (s.setRstat v).cfg = s.cfg := State.setRegs_cfg ..
@[simp] theorem State.setRstat_wasReset (s : State) (v : Stat) :
    (s.setRstat v).wasReset = s.wasReset := State.setRegs_wasReset ..
@[simp] theorem State.setRstat_ridx (s : State) (v : Stat) :
    (s.setRstat v).ridx = s.ridx := State.setRegs_ridx ..
@[simp] theorem State.setRstat_count (s : State) (v : Stat) :
    (s.setRstat v).count = s.count := State.setRegs_count ..
@[simp] theorem State.setRstat_slots (s : State) (v : Stat) :
    (s.setRstat v).slots = s.slots := State.setRegs_slots ..
@[simp] theorem State.setRstat_written (s : State) (v : Stat) :
    (s.setRstat v).written = s.written := State.setRegs_written ..
@[simp] theorem State.setRstat_active (s : State) (v : Stat) :
    (s.setRstat v).active = s.active := State.setRegs_active ..
@[simp] theorem State.setRstat_inputs (s : State) (v : Stat) :
    (s.setRstat v).inputs = s.inputs := State.setRegs_inputs ..

/-! ### setRval -/

@[simp] theorem State.setRval_cfg (s : State) (v : Idx) :
    (s.setRval v).cfg = s.cfg := State.setRegs_cfg ..
@[simp] theorem State.setRval_wasReset (s : State) (v : Idx) :
    (s.setRval v).wasReset = s.wasReset := State.setRegs_wasReset ..
@[simp] theorem State.setRval_ridx (s : State) (v : Idx) :
    (s.setRval v).ridx = s.ridx := State.setRegs_ridx ..
@[simp] theorem State.setRval_count (s : State) (v : Idx) :
    (s.setRval v).count = s.count := State.setRegs_count ..
@[simp] theorem State.setRval_slots (s : State) (v : Idx) :
    (s.setRval v).slots = s.slots := State.setRegs_slots ..
@[simp] theorem State.setRval_written (s : State) (v : Idx) :
    (s.setRval v).written = s.written := State.setRegs_written ..
@[simp] theorem State.setRval_active (s : State) (v : Idx) :
    (s.setRval v).active = s.active := State.setRegs_active ..
@[simp] theorem State.setRval_inputs (s : State) (v : Idx) :
    (s.setRval v).inputs = s.inputs := State.setRegs_inputs ..

/-! ### setRdata -/

@[simp] theorem State.setRdata_cfg (s : State) (v : Elem) :
    (s.setRdata v).cfg = s.cfg := State.setRegs_cfg ..
@[simp] theorem State.setRdata_wasReset (s : State) (v : Elem) :
    (s.setRdata v).wasReset = s.wasReset := State.setRegs_wasReset ..
@[simp] theorem State.setRdata_ridx (s : State) (v : Elem) :
    (s.setRdata v).ridx = s.ridx := State.setRegs_ridx ..
@[simp] theorem State.setRdata_count (s : State) (v : Elem) :
    (s.setRdata v).count = s.count := State.setRegs_count ..
@[simp] theorem State.setRdata_slots (s : State) (v : Elem) :
    (s.setRdata v).slots = s.slots := State.setRegs_slots ..
@[simp] theorem State.setRdata_written (s : State) (v : Elem) :
    (s.setRdata v).written = s.written := State.setRegs_written ..
@[simp] theorem State.setRdata_active (s : State) (v : Elem) :
    (s.setRdata v).active = s.active := State.setRegs_active ..
@[simp] theorem State.setRdata_inputs (s : State) (v : Elem) :
    (s.setRdata v).inputs = s.inputs := State.setRegs_inputs ..

/-! ### raise -/

@[simp] theorem State.raise_cfg (s : State) (c : Condition) :
    (raise s c).cfg = s.cfg := State.setRstat_cfg ..
@[simp] theorem State.raise_wasReset (s : State) (c : Condition) :
    (raise s c).wasReset = s.wasReset := State.setRstat_wasReset ..
@[simp] theorem State.raise_ridx (s : State) (c : Condition) :
    (raise s c).ridx = s.ridx := State.setRstat_ridx ..
@[simp] theorem State.raise_count (s : State) (c : Condition) :
    (raise s c).count = s.count := State.setRstat_count ..
@[simp] theorem State.raise_slots (s : State) (c : Condition) :
    (raise s c).slots = s.slots := State.setRstat_slots ..
@[simp] theorem State.raise_written (s : State) (c : Condition) :
    (raise s c).written = s.written := State.setRstat_written ..
@[simp] theorem State.raise_active (s : State) (c : Condition) :
    (raise s c).active = s.active := State.setRstat_active ..
@[simp] theorem State.raise_inputs (s : State) (c : Condition) :
    (raise s c).inputs = s.inputs := State.setRstat_inputs ..

/-! ### The response registers -/

@[simp] theorem Port.other_ne (p : Port) : p.other ≠ p := by cases p <;> decide
@[simp] theorem Port.ne_other (p : Port) : p ≠ p.other := by cases p <;> decide
@[simp] theorem Port.other_other (p : Port) : p.other.other = p := by cases p <;> rfl
@[simp] theorem Port.other_F : Port.F.other = .B := rfl
@[simp] theorem Port.other_B : Port.B.other = .F := rfl

@[simp] theorem State.regs_F (s : State) : s.regs .F = s.f := rfl
@[simp] theorem State.regs_B (s : State) : s.regs .B = s.b := rfl

@[simp] theorem State.setRegs_regs_same (s : State) (p : Port) (r : PortRegs) :
    (s.setRegs p r).regs p = r := by cases p <;> rfl
@[simp] theorem State.setRegs_regs_other (s : State) (p : Port) (r : PortRegs) :
    (s.setRegs p r).regs p.other = s.regs p.other := by cases p <;> rfl
@[simp] theorem State.setRegs_setRegs (s : State) (p : Port) (r r' : PortRegs) :
    (s.setRegs p r).setRegs p r' = s.setRegs p r' := by cases p <;> rfl

@[simp] theorem State.setRstat_regs_active (s : State) (v : Stat) :
    (s.setRstat v).regs s.active = { s.regs s.active with rstat := v } := by simp [State.setRstat]
@[simp] theorem State.setRstat_regs_other (s : State) (v : Stat) :
    (s.setRstat v).regs s.active.other = s.regs s.active.other := by simp [State.setRstat]
@[simp] theorem State.setRval_regs_active (s : State) (v : Idx) :
    (s.setRval v).regs s.active = { s.regs s.active with rval := v } := by simp [State.setRval]
@[simp] theorem State.setRval_regs_other (s : State) (v : Idx) :
    (s.setRval v).regs s.active.other = s.regs s.active.other := by simp [State.setRval]
@[simp] theorem State.setRdata_regs_active (s : State) (v : Elem) :
    (s.setRdata v).regs s.active = { s.regs s.active with rdata := v } := by simp [State.setRdata]
@[simp] theorem State.setRdata_regs_other (s : State) (v : Elem) :
    (s.setRdata v).regs s.active.other = s.regs s.active.other := by simp [State.setRdata]
@[simp] theorem State.raise_regs_active (s : State) (c : Condition) :
    (raise s c).regs s.active = { s.regs s.active with rstat := c.code } :=
  State.setRstat_regs_active ..
@[simp] theorem State.raise_regs_other (s : State) (c : Condition) :
    (raise s c).regs s.active.other = s.regs s.active.other := State.setRstat_regs_other ..

/-- The registers of both ports are those of the active port and those of the other. -/
theorem State.regs_all (s : State) (P : PortRegs → Prop) :
    (P s.f ∧ P s.b) ↔ (P (s.regs s.active) ∧ P (s.regs s.active.other)) := by
  cases s.active <;> simp [and_comm]

/-- Two states with the same fields, the registers compared by port, are the same state. -/
theorem State.ext_regs {s t : State} (p : Port) (h1 : t.cfg = s.cfg) (h2 : t.wasReset = s.wasReset)
    (h3 : t.ridx = s.ridx) (h4 : t.count = s.count) (h5 : t.slots = s.slots) (hw : t.written = s.written)
    (h6 : t.regs p = s.regs p) (h7 : t.regs p.other = s.regs p.other)
    (h8 : t.active = s.active) (h9 : t.inputs = s.inputs) : t = s := by
  cases s; cases t; cases p <;> simp_all

end Sys2Proof.Machine
end

