-- ==== Sys2Proof/Laws/Ops.lean ====
section
/-! SUPPORT. One lemma per shared operation of Machine/Ops.lean: what it can do in a state in which
commands are performed. -/

namespace Sys2Proof.Machine

/-! ### The states in which commands are performed -/

theorem statLegal_iff {v : Stat} : statLegal v = true ↔ v.toNat ≤ 5 := by simp [statLegal]

theorem coherent_iff {s : State} : coherent s = true ↔
    s.count.toNat ≤ s.cfg.N ∧ s.ridx.toNat < s.cfg.N ∧
    (∀ i < s.count.toNat, (∃ v, Memory.read s.slots (slotOf s i) = some v) ∧
      slotOf s i ∈ s.written) ∧
    s.f.rstat.toNat ≤ 5 ∧ s.b.rstat.toNat ≤ 5 := by
  simp [coherent, statLegal_iff, Option.isSome_iff_exists, and_assoc]

/-- What `ready` says, unpacked once. -/
structure State.Ready (s : State) : Prop where
  legal : configLegal s.cfg = true
  wasReset : s.wasReset = true
  count_le : s.count.toNat ≤ s.cfg.N
  ridx_lt : s.ridx.toNat < s.cfg.N
  valid : ∀ i < s.count.toNat, (∃ v, Memory.read s.slots (slotOf s i) = some v) ∧
    slotOf s i ∈ s.written
  f_le : s.f.rstat.toNat ≤ 5
  b_le : s.b.rstat.toNat ≤ 5

theorem State.ready_iff {s : State} : s.ready = true ↔ s.Ready := by
  simp only [State.ready, Bool.and_eq_true, coherent_iff]
  exact ⟨fun ⟨⟨h1, h2⟩, h3, h4, h5, h6, h7⟩ => ⟨h1, h2, h3, h4, h5, h6, h7⟩,
    fun h => ⟨⟨h.1, h.2⟩, h.3, h.4, h.5, h.6, h.7⟩⟩

theorem State.Ready.cap_pos {s : State} (h : s.Ready) : 1 ≤ s.cfg.N := (configLegal_iff.1 h.legal).1
theorem State.Ready.cap_le {s : State} (h : s.Ready) : s.cfg.N ≤ 255 :=
  (configLegal_iff.1 h.legal).2.1

/-- Only the fields that `ready` reads matter to it. -/
theorem State.ready_serve (s : State) (p : Port) : (s.serve p).ready = s.ready := rfl
theorem State.ready_endCycle (s : State) : s.endCycle.ready = s.ready := rfl

/-- Where a clock edge is performed: not yet reset, or with the invariants. -/
theorem broken_eq_false_iff {s : State} :
    broken s = false ↔ s.wasReset = false ∨ coherent s = true := by
  unfold broken
  cases s.wasReset <;> cases coherent s <;> simp

theorem State.Ready.not_broken {s : State} (h : s.Ready) : broken s = false :=
  broken_eq_false_iff.2 (.inr (coherent_iff.2 ⟨h.3, h.4, h.5, h.6, h.7⟩))

/-- The flags in terms of the counter. -/
theorem emptyFlag_iff {s : State} : emptyFlag s = true ↔ s.count.toNat = 0 := by
  rw [emptyFlag, beq_iff_eq, ← BitVec.toNat_inj]
  rfl

theorem fullFlag_iff {s : State} (h : s.cfg.N ≤ 255) :
    fullFlag s = true ↔ s.count.toNat = s.cfg.N := by
  rw [fullFlag, beq_iff_eq, ← BitVec.toNat_inj, capIdx_toNat h]

theorem flagValue_eq (b : Bool) : flagValue b = if b then 1 else 0 := by cases b <;> rfl

/-! ### The frame of a command -/

/-- All that the guard can answer with: a value only in a ready state, and then its body's. -/
theorem guarded_next_iff {α : Type} {s : State} {body : Except Fault α} {a : α} :
    guarded s body = .next a ↔ s.ready = true ∧ body = .ok a := by
  unfold guarded broken State.ready
  cases configLegal s.cfg <;> cases s.wasReset <;> cases coherent s <;> cases body <;> simp

theorem guarded_ready {α : Type} {s : State} (h : s.ready = true) (a : α) :
    guarded s (.ok a) = .next a := guarded_next_iff.2 ⟨h, rfl⟩

theorem guarded_illegal_config {α : Type} {s : State} (h1 : configLegal s.cfg = false)
    (body : Except Fault α) : guarded s body = .refused .illegalConfiguration := by
  simp [guarded, h1]

theorem guarded_before_reset {α : Type} {s : State} (h1 : configLegal s.cfg = true)
    (h2 : s.wasReset = false) (body : Except Fault α) :
    guarded s body = .refused .beforeFirstReset := by
  simp [guarded, h1, h2]

theorem guarded_broken {α : Type} {s : State} (h1 : configLegal s.cfg = true)
    (h2 : s.wasReset = true) (h3 : coherent s = false) (body : Except Fault α) :
    guarded s body = .fault .brokenInvariant := by
  simp [guarded, broken, h1, h2, h3]

/-- A command answers a next state only where commands are performed, and then its body's. -/
theorem command_next_iff {s t : State} {body : Except Fault State} :
    command s body = .next t ↔ s.ready = true ∧ body = .ok t := guarded_next_iff

theorem command_ready {s : State} (h : s.ready = true) (t : State) : command s (.ok t) = .next t :=
  guarded_ready h t

theorem command_illegal_config {s : State} (h1 : configLegal s.cfg = false)
    (body : Except Fault State) : command s body = .refused .illegalConfiguration :=
  guarded_illegal_config h1 body

theorem command_before_reset {s : State} (h1 : configLegal s.cfg = true) (h2 : s.wasReset = false)
    (body : Except Fault State) : command s body = .refused .beforeFirstReset :=
  guarded_before_reset h1 h2 body

theorem command_broken {s : State} (h1 : configLegal s.cfg = true) (h2 : s.wasReset = true)
    (h3 : coherent s = false) (body : Except Fault State) :
    command s body = .fault .brokenInvariant := guarded_broken h1 h2 h3 body

/-! ### The outputs -/

/-- In a ready state the status outputs have values. -/
theorem statusOutputs_ready {s : State} (h : s.Ready) : ∃ k, writeIndex s = .ok k ∧
    statusOutputs s = .next
      { empty := emptyFlag s, full := fullFlag s, count := s.count, ridx := s.ridx, widx := k,
        cap := capIdx s.cfg } := by
  obtain ⟨k, hk, -⟩ := writeIndex_ok h.legal h.ridx_lt h.count_le
  refine ⟨k, hk, guarded_next_iff.2 ⟨State.ready_iff.2 h, ?_⟩⟩
  simp [statusLogic, hk]

/-- In a ready state all outputs have values: the registers and the status outputs. -/
theorem outputs_ready {s : State} (h : s.Ready) : ∃ st, statusOutputs s = .next st ∧
    outputs s = .next { f := s.f, b := s.b, st := st } := by
  obtain ⟨k, -, ho⟩ := statusOutputs_ready h
  refine ⟨_, ho, guarded_next_iff.2 ⟨State.ready_iff.2 h, ?_⟩⟩
  rw [(guarded_next_iff.1 ho).2]
  rfl

/-! ### The slot accesses -/

theorem memRead_ok {s : State} {k : Idx} {v : Elem} (hk : k.toNat < s.cfg.N)
    (hv : Memory.read s.slots k.toNat = some v) : memRead s k = .ok v := by
  simp [memRead, Nat.not_le.2 hk, hv]

theorem memWrite_ok {s : State} {k : Idx} (hk : k.toNat < s.cfg.N) (v : Elem) :
    memWrite s k v = .ok (s.storeSlot k.toNat v) := by
  simp [memWrite, Nat.not_le.2 hk]

/-! ### Push, pop and indexed access -/

theorem pushElement_full {s : State} (h : s.Ready) (hf : s.count.toNat = s.cfg.N) (v : Elem) :
    pushElement s v = .ok (raise s .full) := by
  rw [pushElement, if_pos ((fullFlag_iff h.cap_le).2 hf)]

theorem pushElement_room {s : State} (h : s.Ready) (hf : s.count.toNat ≠ s.cfg.N) (v : Elem) :
    ∃ k, writeIndex s = .ok k ∧ k.toNat = slotOf s s.count.toNat ∧ k.toNat < s.cfg.N ∧
      pushElement s v = .ok (((s.storeSlot k.toNat v).setCount
        (s.count + 1)).setRstat statOk) := by
  obtain ⟨k, hk, he, hlt⟩ := writeIndex_ok h.legal h.ridx_lt h.count_le
  refine ⟨k, hk, he, hlt, ?_⟩
  have : ¬ fullFlag s = true := mt (fullFlag_iff h.cap_le).1 hf
  simp [pushElement, this, hk, memWrite_ok hlt]

theorem popElement_empty {s : State} (hc : s.count.toNat = 0) :
    popElement s = .ok (raise s .empty) := by
  rw [popElement, if_pos (emptyFlag_iff.2 hc)]

theorem popElement_some {s : State} (h : s.Ready) (hc : s.count.toNat ≠ 0) :
    ∃ v k, Memory.read s.slots s.ridx.toNat = some v ∧ advance s.cfg s.ridx = .ok k ∧
      k.toNat = (s.ridx.toNat + 1) % s.cfg.N ∧ k.toNat < s.cfg.N ∧
      popElement s = .ok ((((s.setRdata v).setRidx k).setCount (s.count - 1)).setRstat statOk) := by
  obtain ⟨⟨v, hv⟩, -⟩ := h.valid 0 (Nat.pos_of_ne_zero hc)
  rw [slotOf_zero h.ridx_lt] at hv
  obtain ⟨k, hk, he, hlt⟩ := advance_ok h.legal h.ridx_lt
  refine ⟨v, k, hv, hk, he, hlt, ?_⟩
  have : ¬ emptyFlag s = true := mt emptyFlag_iff.1 hc
  simp [popElement, this, memRead_ok h.ridx_lt hv, hk]

theorem peekElement_range {s : State} {i : Sum} (hi : s.count.toNat ≤ i.toNat) :
    peekElement s i = .ok (raise s (.outOfRange i)) := by
  rw [peekElement, if_pos (by rwa [BitVec.le_def, zext9_toNat])]

theorem peekElement_valid {s : State} (h : s.Ready) {i : Sum} (hi : i.toNat < s.count.toNat) :
    ∃ v k, physIndex s i = .ok k ∧ k.toNat = slotOf s i.toNat ∧ k.toNat < s.cfg.N ∧
      Memory.read s.slots k.toNat = some v ∧
      peekElement s i = .ok ((s.setRdata v).setRstat statOk) := by
  obtain ⟨⟨v, hv⟩, -⟩ := h.valid _ hi
  obtain ⟨k, hk, he, hlt⟩ := physIndex_ok h.legal h.ridx_lt (lt_of_lt_of_le hi h.count_le)
  rw [← he] at hv
  refine ⟨v, k, hk, he, hlt, hv, ?_⟩
  have : ¬ zext9 s.count ≤ i := by rw [BitVec.le_def, zext9_toNat]; omega
  simp [peekElement, this, hk, memRead_ok hlt hv]

end Sys2Proof.Machine
end

