-- ==== Sys2Proof/Laws/Exec.lean ====
section
/-! SUPPORT. What a command can do, said once for all of them, and what each of the four effects keeps. -/

namespace Sys2Proof.Machine

/-- The four effects a command can have on the state. `r` is what the issuing port's registers
become. -/
inductive Effect (s : State) : State → Prop where
  /-- A response only: NOP, the queries, PEEK, a failed command, the ILLEGAL response. -/
  | responds (r : PortRegs) (hr : r.rstat.toNat ≤ 5)
      (hd : r.rdata = (s.regs s.active).rdata ∨ ∃ k, Memory.read s.slots k = some r.rdata) :
      Effect s (s.setRegs s.active r)
  /-- CLEAR. -/
  | clears (r : PortRegs) (hr : r.rstat.toNat ≤ 5) (hd : r.rdata = (s.regs s.active).rdata) :
      Effect s ((s.setCount 0).setRegs s.active r)
  /-- A push that finds room. -/
  | pushes (k : Idx) (r : PortRegs) (hk : k.toNat = slotOf s s.count.toNat) (hlt : k.toNat < s.cfg.N)
      (hn : s.count.toNat ≠ s.cfg.N) (hr : r.rstat.toNat ≤ 5)
      (hd : r.rdata = (s.regs s.active).rdata) :
      Effect s (((s.storeSlot k.toNat (pushOperand s)).setCount
        (s.count + 1)).setRegs s.active r)
  /-- A pop that finds an element. -/
  | pops (k : Idx) (r : PortRegs) (hk : k.toNat = (s.ridx.toNat + 1) % s.cfg.N)
      (hlt : k.toNat < s.cfg.N) (hn : s.count.toNat ≠ 0) (hr : r.rstat.toNat ≤ 5)
      (hd : Memory.read s.slots s.ridx.toNat = some r.rdata) :
      Effect s (((s.setRidx k).setCount (s.count - 1)).setRegs s.active r)

theorem statOk_le : statOk.toNat ≤ 5 := by decide
theorem statNone_le : statNone.toNat ≤ 5 := by decide
theorem Condition.code_le (c : Condition) : c.code.toNat ≤ 5 := by cases c <;> simp [Condition.code]

theorem raise_effect (s : State) (c : Condition) : Effect s (raise s c) :=
  .responds _ c.code_le (.inl rfl)

theorem queryValue_effect (s : State) (v : Idx) : Effect s (queryValue s v) := by
  have : queryValue s v = s.setRegs s.active { s.regs s.active with rval := v, rstat := statOk } := by
    simp only [queryValue, State.setRstat, State.setRval, State.setRegs_active,
      State.setRegs_regs_same, State.setRegs_setRegs]
  rw [this]
  exact .responds _ statOk_le (.inl rfl)

theorem pushElement_effect {s : State} (h : s.Ready) :
    ∃ t, pushElement s (pushOperand s) = .ok t ∧ Effect s t := by
  by_cases hf : s.count.toNat = s.cfg.N
  · exact ⟨_, pushElement_full h hf _, raise_effect s _⟩
  · obtain ⟨k, -, hk, hlt, he⟩ := pushElement_room h hf (pushOperand s)
    refine ⟨_, he, ?_⟩
    simp only [State.setRstat, State.setCount_active, State.storeSlot_active, State.setCount_regs,
      State.storeSlot_regs]
    exact .pushes k _ hk hlt hf statOk_le rfl

theorem popElement_effect {s : State} (h : s.Ready) :
    ∃ t, popElement s = .ok t ∧ Effect s t := by
  by_cases hc : s.count.toNat = 0
  · exact ⟨_, popElement_empty hc, raise_effect s _⟩
  · obtain ⟨v, k, hv, -, hk, hlt, he⟩ := popElement_some h hc
    refine ⟨_, he, ?_⟩
    have : (((s.setRdata v).setRidx k).setCount (s.count - 1)).setRstat statOk =
        ((s.setRidx k).setCount (s.count - 1)).setRegs s.active
          { s.regs s.active with rdata := v, rstat := statOk } := by
      simp only [State.setRstat, State.setRdata, State.setCount_active, State.setRidx_active,
        State.setRegs_active, State.setCount_regs, State.setRidx_regs, State.setRegs_regs_same]
      cases s.active <;> rfl
    rw [this]
    exact .pops k _ hk hlt hc statOk_le hv

theorem peekElement_effect {s : State} (h : s.Ready) (i : Sum) :
    ∃ t, peekElement s i = .ok t ∧ Effect s t := by
  by_cases hi : s.count.toNat ≤ i.toNat
  · exact ⟨_, peekElement_range hi, raise_effect s _⟩
  · obtain ⟨v, k, -, -, -, hv, he⟩ := peekElement_valid h (Nat.lt_of_not_le hi)
    refine ⟨_, he, ?_⟩
    have : (s.setRdata v).setRstat statOk =
        s.setRegs s.active { s.regs s.active with rdata := v, rstat := statOk } := by
      simp only [State.setRstat, State.setRdata, State.setRegs_active, State.setRegs_regs_same,
        State.setRegs_setRegs]
    rw [this]
    exact .responds _ statOk_le (.inr ⟨_, hv⟩)

/-- The body a command runs in its frame (the whole of `exec`, read off once). -/
def execBody (i : Instr) (s : State) : Except Fault State :=
  match i with
  | .nop => .ok (s.setRstat statNone)
  | .push => pushElement s (pushOperand s)
  | .pop => popElement s
  | .clear => .ok ((s.setCount 0).setRstat statOk)
  | .peek k => peekElement s (peekOperand k)
  | .qempty => .ok (queryValue s (flagValue (emptyFlag s)))
  | .qfull => .ok (queryValue s (flagValue (fullFlag s)))
  | .qsize => .ok (queryValue s s.count)
  | .qcap => .ok (queryValue s (capIdx s.cfg))
  | .lpush => pushElement s (pushOperand s)
  | .lpop => popElement s
  | .pushref => pushElement s (pushOperand s)
  | .illegal w => .ok (raise s (.illegal w))

theorem exec_eq_command (i : Instr) (s : State) : exec i s = command s (execBody i s) := by
  cases i <;> rfl

/-- In a state in which commands are performed, every command answers a next state and has one of the
four effects. -/
theorem exec_effect {s : State} (hr : s.ready = true) (i : Instr) :
    ∃ t, exec i s = .next t ∧ Effect s t := by
  have h := State.ready_iff.1 hr
  suffices hb : ∃ t, execBody i s = .ok t ∧ Effect s t by
    obtain ⟨t, hb, he⟩ := hb
    exact ⟨t, by rw [exec_eq_command, hb, command_ready hr], he⟩
  cases i with
  | nop => exact ⟨_, rfl, .responds _ statNone_le (.inl rfl)⟩
  | push => exact pushElement_effect h
  | pop => exact popElement_effect h
  | clear => exact ⟨_, rfl, .clears _ statOk_le rfl⟩
  | peek i => exact peekElement_effect h _
  | qempty => exact ⟨_, rfl, queryValue_effect s _⟩
  | qfull => exact ⟨_, rfl, queryValue_effect s _⟩
  | qsize => exact ⟨_, rfl, queryValue_effect s _⟩
  | qcap => exact ⟨_, rfl, queryValue_effect s _⟩
  | lpush => exact pushElement_effect h
  | lpop => exact popElement_effect h
  | pushref => exact pushElement_effect h
  | illegal w => exact ⟨_, rfl, raise_effect s _⟩

/-- A command that answers a next state was performed in such a state. -/
theorem exec_next_ready {s t : State} {i : Instr} (h : exec i s = .next t) : s.ready = true := by
  rw [exec_eq_command] at h
  exact (command_next_iff.1 h).1

/-- The inversion of a command. -/
theorem exec_next_effect {s t : State} {i : Instr} (h : exec i s = .next t) : Effect s t := by
  obtain ⟨u, hu, he⟩ := exec_effect (exec_next_ready h) i
  rw [h] at hu
  cases hu
  exact he

/-! ### What the effects keep -/

theorem Effect.cfg_eq {s t : State} (h : Effect s t) : t.cfg = s.cfg := by cases h <;> simp
theorem Effect.wasReset_eq {s t : State} (h : Effect s t) : t.wasReset = s.wasReset := by
  cases h <;> simp
theorem Effect.active_eq {s t : State} (h : Effect s t) : t.active = s.active := by cases h <;> simp
theorem Effect.inputs_eq {s t : State} (h : Effect s t) : t.inputs = s.inputs := by cases h <;> simp
theorem Effect.other_eq {s t : State} (h : Effect s t) :
    t.regs s.active.other = s.regs s.active.other := by cases h <;> simp

theorem Effect.rstat_le {s t : State} (h : Effect s t) (hs : s.f.rstat.toNat ≤ 5 ∧ s.b.rstat.toNat ≤ 5) :
    t.f.rstat.toNat ≤ 5 ∧ t.b.rstat.toNat ≤ 5 := by
  rw [State.regs_all t fun r => r.rstat.toNat ≤ 5, h.active_eq, h.other_eq]
  rw [State.regs_all s fun r => r.rstat.toNat ≤ 5] at hs
  refine ⟨?_, hs.2⟩
  cases h <;> simpa

/-- Every command keeps R19's invariants (R64). -/
theorem Effect.ready {s t : State} (h : Effect s t) (hs : s.Ready) : t.Ready := by
  have hst := h.rstat_le ⟨hs.f_le, hs.b_le⟩
  refine ⟨h.cfg_eq ▸ hs.legal, h.wasReset_eq ▸ hs.wasReset, ?_, ?_, ?_, hst.1, hst.2⟩
  · cases h with
    | responds => simpa using hs.count_le
    | clears => simp
    | pushes k r _ _ hn =>
      have := hs.count_le
      have := hs.cap_le
      simp only [State.setRegs_count, State.setCount_count, State.setRegs_cfg, State.setCount_cfg,
        State.storeSlot_cfg, BitVec.toNat_add, show (1 : Idx).toNat = 1 from rfl]
      omega
    | pops k r _ _ hn =>
      have := hs.count_le
      have := s.count.isLt
      simp only [State.setRegs_count, State.setCount_count, State.setRegs_cfg, State.setCount_cfg,
        State.setRidx_cfg, BitVec.toNat_sub, show (1 : Idx).toNat = 1 from rfl]
      omega
  · cases h with
    | responds => simpa using hs.ridx_lt
    | clears => simpa using hs.ridx_lt
    | pushes => simpa using hs.ridx_lt
    | pops k r _ hlt => simpa using hlt
  · cases h with
    | responds => simpa [slotOf] using hs.valid
    | clears => simp
    | pushes k r hk _ hn =>
      intro i hi
      have := hs.count_le
      have := hs.cap_le
      simp only [State.setRegs_count, State.setCount_count, BitVec.toNat_add,
        show (1 : Idx).toNat = 1 from rfl] at hi
      have hsl : slotOf (((s.storeSlot k.toNat (pushOperand s)).setCount
          (s.count + 1)).setRegs s.active r) i = slotOf s i := by simp [slotOf]
      rw [hsl]
      simp only [State.setRegs_slots, State.setCount_slots, State.storeSlot_slots, State.setRegs_written,
        State.setCount_written, State.storeSlot_written]
      by_cases hik : slotOf s i = k.toNat
      · exact ⟨⟨_, by rw [hik, Memory.read_write_same]⟩, SlotSet.mem_insert.2 (.inl hik)⟩
      · rw [Memory.read_write_other _ _ hik, SlotSet.mem_insert, or_iff_right hik]
        apply hs.valid
        rcases Nat.lt_or_ge i s.count.toNat with h | h
        · exact h
        · have : i = s.count.toNat := by omega
          rw [this, hk] at hik
          exact absurd rfl hik
    | pops k r hk _ hn =>
      intro i hi
      have := s.count.isLt
      simp only [State.setRegs_count, State.setCount_count, BitVec.toNat_sub,
        show (1 : Idx).toNat = 1 from rfl] at hi
      have hv := hs.valid (i + 1) (by omega)
      have hsl : slotOf (((s.setRidx k).setCount (s.count - 1)).setRegs s.active r) i =
          slotOf s (i + 1) := by
        simp [slotOf, hk, add_assoc, add_comm 1 i]
      rw [hsl]
      simpa using hv

/-- Every command keeps the widths and the canonical form. -/
theorem Effect.shaped {s t : State} (h : Effect s t) (hs : s.shaped = true) : t.shaped = true := by
  simp only [State.shaped, Bool.and_eq_true, decide_eq_true_eq, and_assoc] at hs ⊢
  obtain ⟨hw, hf, hww, hwf, hd⟩ := hs
  have hcfg := h.cfg_eq
  have hdata : t.f.rdata < 2 ^ t.cfg.W ∧ t.b.rdata < 2 ^ t.cfg.W := by
    rw [hcfg, State.regs_all t fun r => r.rdata < 2 ^ s.cfg.W, h.active_eq, h.other_eq]
    rw [State.regs_all s fun r => r.rdata < 2 ^ s.cfg.W] at hd
    refine ⟨?_, hd.2⟩
    cases h with
    | responds r _ hr =>
      rw [State.setRegs_regs_same]
      rcases hr with hr | ⟨k, hk⟩
      · exact hr ▸ hd.1
      · exact (Memory.read_lt hf hk).2
    | clears r _ hr => rw [State.setRegs_regs_same]; exact hr ▸ hd.1
    | pushes k r _ _ _ _ hr => rw [State.setRegs_regs_same]; exact hr ▸ hd.1
    | pops k r _ _ _ _ hr => rw [State.setRegs_regs_same]; exact (Memory.read_lt hf hr).2
  refine ⟨?_, ?_, ?_, ?_, hdata⟩
  · cases h with
    | responds => simpa using hw
    | clears => simpa using hw
    | pushes k r => simpa using Memory.write_wf k.toNat (pushOperand s) hw
    | pops => simpa using hw
  · cases h with
    | responds => simpa using hf
    | clears => simpa using hf
    | pushes k r _ hlt => simpa [pushOperand] using Memory.write_fits hlt (lowW_lt ..) hf
    | pops => simpa using hf
  · cases h with
    | responds => simpa using hww
    | clears => simpa using hww
    | pushes k r => simpa using SlotSet.insert_wf k.toNat hww
    | pops => simpa using hww
  · cases h with
    | responds => simpa using hwf
    | clears => simpa using hwf
    | pushes k r _ hlt => simpa using SlotSet.insert_fits hlt hwf
    | pops => simpa using hwf

/-! ### One clock edge -/

theorem andThen_next {o : Host.Outcome State Fault Refusal}
    {k : State → Host.Outcome State Fault Refusal} {t : State} (h : andThen o k = .next t) :
    ∃ s, o = .next s ∧ k s = .next t := by
  cases o with
  | next s => exact ⟨s, rfl, h⟩
  | fault => cases h
  | refused => cases h

/-- What a step can do: a reset edge, or B's command and then F's, and neither in a broken state. -/
theorem step_next_cases {s t : State} (h : step s = .next t) :
    configLegal s.cfg = true ∧ broken s = false ∧
    ((pins s).rst = true ∧ t = (resetState s).endCycle ∨
     (pins s).rst = false ∧ ∃ s1 s2, execPort .B s = .next s1 ∧ execPort .F s1 = .next s2 ∧
       t = s2.endCycle) := by
  unfold step clockEdge at h
  split at h
  · cases h
  · rename_i hc
    split at h
    · cases h
    · rename_i hb
      refine ⟨by simpa using hc, by simpa using hb, ?_⟩
      split at h
      · rename_i hr
        cases h
        exact .inl ⟨hr, rfl⟩
      · rename_i hr
        obtain ⟨s1, h1, h⟩ := andThen_next h
        obtain ⟨s2, h2, h⟩ := andThen_next h
        cases h
        exact .inr ⟨by simpa using hr, s1, s2, h1, h2, rfl⟩

/-- With `rst` low, a step is B's command and then F's, whatever they answer. -/
theorem step_commands_eq {s : State} (hc : configLegal s.cfg = true) (hb : broken s = false)
    (hr : (pins s).rst = false) : step s =
      andThen (execPort .B s) fun s1 => andThen (execPort .F s1) fun s2 => .next s2.endCycle := by
  simp [step, clockEdge, hc, hb, hr]

theorem step_commands {s s1 s2 : State} (hc : configLegal s.cfg = true) (hb : broken s = false)
    (hr : (pins s).rst = false) (h1 : execPort .B s = .next s1) (h2 : execPort .F s1 = .next s2) :
    step s = .next s2.endCycle := by
  simp [step_commands_eq hc hb hr, h1, h2, andThen]

theorem step_reset {s : State} (hc : configLegal s.cfg = true) (hb : broken s = false)
    (hr : (pins s).rst = true) : step s = .next (resetState s).endCycle := by
  simp [step, clockEdge, hc, hb, hr]

/-- A broken state faults at every edge. -/
theorem step_broken {s : State} (hc : configLegal s.cfg = true) (hb : broken s = true) :
    step s = .fault .brokenInvariant := by
  simp [step, clockEdge, hc, hb]

end Sys2Proof.Machine
end

