-- ==== Sys2Proof/Laws/PerInstr.lean ====
section
/-! SUPPORT. One lemma per constructor: the word of a well-formed command is legal exactly when the
command is not the catch-all ILLEGAL (R47, R48). -/

namespace Sys2Proof.Laws.EncodesLegally

/-- Whether a command is the catch-all row. -/
def isIllegal : Instr → Bool
  | .nop => false
  | .push => false
  | .pop => false
  | .clear => false
  | .peek _ => false
  | .qempty => false
  | .qfull => false
  | .qsize => false
  | .qcap => false
  | .lpush => false
  | .lpop => false
  | .pushref => false
  | .illegal _ => true

/-- The word of a well-formed command is legal unless the command is ILLEGAL. -/
def Statement (i : Instr) : Prop := i.wellFormed = true → legalWord (encode i) = !isIllegal i

theorem nop : Statement .nop := fun _ => by decide
theorem push : Statement .push := fun _ => by decide
theorem pop : Statement .pop := fun _ => by decide
theorem clear : Statement .clear := fun _ => by decide
theorem peek (i : Idx) : Statement (.peek i) := fun _ => by revert i; decide
theorem qempty : Statement .qempty := fun _ => by decide
theorem qfull : Statement .qfull := fun _ => by decide
theorem qsize : Statement .qsize := fun _ => by decide
theorem qcap : Statement .qcap := fun _ => by decide
theorem lpush : Statement .lpush := fun _ => by decide
theorem lpop : Statement .lpop := fun _ => by decide
theorem pushref : Statement .pushref := fun _ => by decide
theorem illegal (w : Cmd) : Statement (.illegal w) := fun h => by
  simpa [isIllegal, encode, Instr.wellFormed] using h

end Sys2Proof.Laws.EncodesLegally
end

