-- ==== Sys2Proof/Laws/Step.lean ====
section
/-! SUPPORT. One clock edge and runs of clock edges, in states in which commands are performed. -/

namespace Sys2Proof.Machine

theorem State.Ready.serve {s : State} (h : s.Ready) (p : Port) : (s.serve p).Ready :=
  State.ready_iff.1 ((s.ready_serve p).trans (State.ready_iff.2 h))

theorem State.Ready.endCycle {s : State} (h : s.Ready) : s.endCycle.Ready :=
  State.ready_iff.1 (s.ready_endCycle.trans (State.ready_iff.2 h))

/-- The reset state is one in which commands are performed. -/
theorem resetState_ready {s : State} (hc : configLegal s.cfg = true) : (resetState s).Ready := by
  have := configLegal_iff.1 hc
  refine ⟨hc, rfl, ?_, ?_, ?_, ?_, ?_⟩ <;> simp [resetState, PortRegs.reset]
  omega

/-- A command leaves the pins of the cycle as they are. -/
theorem Effect.pins_eq {s t : State} (h : Effect s t) : pins t = pins s := by
  simp [pins, h.inputs_eq]

/-- With `rst` low, both commands are performed. -/
theorem step_ready {s : State} (h : s.Ready) (hr : (pins s).rst = false) :
    ∃ s1 s2, execPort .B s = .next s1 ∧ Effect (s.serve .B) s1 ∧ execPort .F s1 = .next s2 ∧
      Effect (s1.serve .F) s2 ∧ step s = .next s2.endCycle ∧ s1.Ready ∧ s2.Ready := by
  obtain ⟨s1, h1, e1⟩ := exec_effect (s := s.serve .B) (State.ready_iff.2 (h.serve .B))
    (decode ((pins s).cmd .B))
  have r1 := e1.ready (h.serve .B)
  obtain ⟨s2, h2, e2⟩ := exec_effect (s := s1.serve .F) (State.ready_iff.2 (r1.serve .F))
    (decode ((pins s1).cmd .F))
  exact ⟨s1, s2, h1, e1, h2, e2, step_commands h.legal h.not_broken hr h1 h2, r1, e2.ready (r1.serve .F)⟩

/-! ### Runs -/

@[simp] theorem run_zero (s : State) : run 0 s = .next s := rfl

/-- A run is its first step and then the rest. -/
theorem run_succ (n : Nat) (s : State) : run (n + 1) s = andThen (step s) (run n) := rfl

theorem run_succ_of_next {n : Nat} {s t : State} (h : step s = .next t) :
    run (n + 1) s = run n t := by
  rw [run_succ, h]
  rfl

/-- The model's runs are the host's runs of the machine. -/
theorem run_eq_core_run (n : Nat) :
    ∀ s : Sys2Proof.core.State, Host.Core.run Sys2Proof.core n s = run n s := by
  induction n with
  | zero => exact fun _ => rfl
  | succ n ih =>
    intro s
    rw [Host.Core.run]
    have h : Sys2Proof.core.step s = step s := rfl
    show _ = andThen (step s) (run n)
    rw [← h]
    cases Sys2Proof.core.step s with
    | next t => exact ih t
    | fault r => rfl
    | refused r => rfl

end Sys2Proof.Machine
end

