-- ==== Sys2Proof/Tests/Slice0.lean ====
section
/-! SUPPORT. Tests with results from outside the model (the rules' examples and the vectors of
spec/95_test_vectors.md, named in each section), and a witness for every statement that has
hypotheses. -/

namespace Sys2Proof.Tests

open Sys2Proof Sys2Proof.Machine

/-! ### Helpers -/

/-- A block of capacity `n` with W = 8, in the state ridx / count / slots of spec/95_test_vectors.md, the
listed slots written since reset. -/
def block (n r c : Nat) (m : Memory) : State :=
  { State.resetWith { N := n, W := 8 } with
    ridx := BitVec.ofNat 8 r, count := BitVec.ofNat 8 c, slots := m,
    written := m.map Prod.fst }

/-- One cycle with these words and elements on the ports. -/
def present (s : State) (bw : Cmd) (bv : Elem) (fw : Cmd) (fv : Elem) : State :=
  { s with inputs := [{ rst := false, fCmd := fw, fWdata := fv, bCmd := bw, bWdata := bv }] }

/-- One cycle with a command on port F alone. -/
def onF (s : State) (w : Cmd) (v : Elem) : State := present s 0x0000 0 w v

/-- Whether one step answers a next state of which `p` holds. -/
def stepTo (s : State) (p : State → Bool) : Bool :=
  match step s with
  | .next t => p t
  | .fault _ => false
  | .refused _ => false

/-- The kinds of outcome. -/
def isNext (o : Host.Outcome State Fault Refusal) : Bool :=
  match o with
  | .next _ => true
  | .fault _ => false
  | .refused _ => false

def isFault (o : Host.Outcome State Fault Refusal) : Bool :=
  match o with
  | .next _ => false
  | .fault _ => true
  | .refused _ => false

def isRefused (o : Host.Outcome State Fault Refusal) : Bool :=
  match o with
  | .next _ => false
  | .fault _ => false
  | .refused _ => true

/-- Cursor, counter and slots of a state. -/
def buffer (s : State) : Nat × Nat × Memory := (s.ridx.toNat, s.count.toNat, s.slots)

/-- Four elements in a buffer of N = 4, the oldest in slot 1: full. -/
def full4 : State := block 4 1 4 [(0, 0x45), (1, 0x42), (2, 0x43), (3, 0x44)]

/-- The buffer of L2.4: [0x58, 0x59, 0x5A] across the wrap. -/
def wrapped4 : State := block 4 3 3 [(0, 0x59), (1, 0x5A), (3, 0x58)]

/-- A full buffer of N = 1. -/
def full1 : State := block 1 0 1 [(0, 0x10)]

/-- N = 255, the read cursor in the last slot, two elements: the next sum needs the ninth bit. -/
def wide255 : State := block 255 254 2 [(0, 0x22), (254, 0x77)]

/-! ### Well-formedness: the one check, and an ill-formed term it refuses -/

theorem test_illegal_of_a_legal_word_is_ill_formed : (Instr.illegal 0x0001).wellFormed = false := by
  decide
theorem test_illegal_of_a_peek_word_is_ill_formed : (Instr.illegal 0xFF04).wellFormed = false := by
  decide
theorem test_illegal_of_an_illegal_word_is_well_formed :
    (Instr.illegal 0x0011).wellFormed = true := by decide

/-! ### Decoding: words written out from R47 and L2.6, fields IDX, RSV, OP -/

theorem test_decode_control : decode 0b00000000_0000_0000 = .nop := by decide
theorem test_decode_push : decode 0b00000000_0000_0001 = .push := by decide
theorem test_decode_pop : decode 0b00000000_0000_0010 = .pop := by decide
theorem test_decode_clear : decode 0b00000000_0000_0011 = .clear := by decide
theorem test_decode_peek : decode 0b00000000_0000_0100 = .peek 0 ∧
    decode 0b01111111_0000_0100 = .peek 127 ∧ decode 0b11111111_0000_0100 = .peek 255 := by decide
theorem test_decode_queries : decode 0b00000000_0000_0101 = .qempty ∧
    decode 0b00000000_0000_0110 = .qfull ∧ decode 0b00000000_0000_0111 = .qsize ∧
    decode 0b00000000_0000_1000 = .qcap := by decide
theorem test_decode_locked : decode 0b00000000_0000_1001 = .lpush ∧
    decode 0b00000000_0000_1010 = .lpop := by decide
theorem test_decode_illegal : [0x000B, 0x000F, 0x0010, 0x00F1, 0x0100, 0x0301, 0x0107, 0xFFFF].all
    (fun w : Cmd => decode w = .illegal w) = true := by decide
theorem test_reject_reasons : rejectReasons 0x000B = [.reservedOp] ∧
    rejectReasons 0x0010 = [.rsvNonzero] ∧ rejectReasons 0x0301 = [.idxNonzero] ∧
    rejectReasons 0xFFFF = [.reservedOp, .rsvNonzero, .idxNonzero] ∧
    rejectReasons 0xFF04 = [] := by decide
theorem test_encode_words : [Instr.nop, .push, .pop, .clear, .peek 0x7F, .qempty, .qfull, .qsize,
    .qcap, .lpush, .lpop, .pushref, .illegal 0x00F1].map encode =
    [0x0000, 0x0001, 0x0002, 0x0003, 0x7F04, 0x0005, 0x0006, 0x0007, 0x0008, 0x0009, 0x000A, 0x0001,
      0x00F1] := by decide
theorem test_decode_table_word : decodeTableWord 16 0x0204 = some (.peek 2) ∧
    decodeTableWord 16 0x0001 = some .push ∧ decodeTableWord 16 0x0011 = some (.illegal 0x0011) ∧
    decodeTableWord 16 0x10000 = none := by decide

/-! ### Index arithmetic: L2.1 -/

theorem test_wrap : wrap { N := 1, W := 8 } 1 = .ok 0 ∧ wrap { N := 4, W := 8 } 3 = .ok 3 ∧
    wrap { N := 4, W := 8 } 4 = .ok 0 ∧ wrap { N := 4, W := 8 } 7 = .ok 3 ∧
    wrap { N := 255, W := 8 } 254 = .ok 254 ∧ wrap { N := 255, W := 8 } 255 = .ok 0 ∧
    wrap { N := 4, W := 8 } 8 = .error .wrapOutOfRange := by decide
theorem test_write_index : writeIndex (block 4 3 0 []) = .ok 3 ∧
    writeIndex (block 4 3 1 []) = .ok 0 ∧ writeIndex (block 4 3 4 []) = .ok 3 ∧
    writeIndex (block 200 150 120 []) = .ok 70 ∧ writeIndex (block 255 254 255 []) = .ok 254 ∧
    writeIndex (block 255 254 254 []) = .ok 253 := by decide
theorem test_phys_and_advance : physIndex (block 4 3 3 []) 2 = .ok 1 ∧
    advance { N := 4, W := 8 } 3 = .ok 0 ∧ advance { N := 4, W := 8 } 2 = .ok 3 ∧
    advance { N := 1, W := 8 } 0 = .ok 0 ∧ advance { N := 255, W := 8 } 254 = .ok 0 := by decide

/-! ### The commands: L2.2 to L2.5, R73, R49 -/

theorem test_nop_overwrites_status : stepTo
    (onF { full4 with f := { rstat := 1, rval := 3, rdata := 0x5A } } 0x0000 0)
    (fun t => t.f = { rstat := 0, rval := 3, rdata := 0x5A } ∧ buffer t = buffer full4) = true := by
  decide
theorem test_illegal_on_full_is_not_full : stepTo (onF full4 0x0011 0x46)
    (fun t => t.f.rstat = 5 ∧ buffer t = buffer full4) = true := by decide
theorem test_qempty : stepTo (onF (block 4 0 0 []) 0x0005 0)
    (fun t => t.f = { rstat := 1, rval := 1, rdata := 0 }) = true ∧
    stepTo (onF wrapped4 0x0005 0) (fun t => t.f.rval = 0) = true := by decide
theorem test_qfull : stepTo (onF full4 0x0006 0) (fun t => t.f.rval = 1) = true ∧
    stepTo (onF wrapped4 0x0006 0) (fun t => t.f.rval = 0) = true ∧
    stepTo (onF full1 0x0006 0) (fun t => t.f.rval = 1) = true := by decide
theorem test_qsize : stepTo (onF wrapped4 0x0007 0)
    (fun t => t.f = { rstat := 1, rval := 3, rdata := 0 }) = true := by decide
theorem test_qcap : stepTo (onF wide255 0x0008 0)
    (fun t => t.f = { rstat := 1, rval := 255, rdata := 0 }) = true := by decide
theorem test_clear_keeps_ridx : stepTo (onF (block 4 2 2 [(2, 0x58), (3, 0x59)]) 0x0003 0)
    (fun t => buffer t = (2, 0, [(2, 0x58), (3, 0x59)]) ∧ t.f.rstat = 1) = true := by decide
theorem test_push_wraps : stepTo (onF (block 4 1 3 [(1, 0x42), (2, 0x43), (3, 0x44)]) 0x0001 0x45)
    (fun t => buffer t = buffer full4 ∧ t.f.rstat = 1) = true ∧
    stepTo (onF wide255 0x0001 0xAA)
    (fun t => buffer t = (254, 3, [(0, 0x22), (1, 0xAA), (254, 0x77)])) = true := by decide
theorem test_push_on_full : stepTo (onF full4 0x0001 0x46)
    (fun t => buffer t = buffer full4 ∧ t.f.rstat = 2) = true ∧
    stepTo (onF full1 0x0001 0x11) (fun t => buffer t = buffer full1 ∧ t.f.rstat = 2) = true := by
  decide
theorem test_pushref : exec .pushref (onF (block 4 0 0 []) 0x0001 0x41) =
    exec .push (onF (block 4 0 0 []) 0x0001 0x41) := rfl
theorem test_pop_wraps : stepTo (onF (block 4 3 2 [(0, 0x43), (3, 0x42)]) 0x0002 0)
    (fun t => buffer t = (0, 1, [(0, 0x43), (3, 0x42)]) ∧ t.f.rdata = 0x42 ∧ t.f.rstat = 1) =
    true := by decide
theorem test_pop_on_empty : stepTo
    (onF { block 4 2 0 [] with f := { rstat := 0, rval := 0, rdata := 0x99 } } 0x0002 0)
    (fun t => buffer t = (2, 0, []) ∧ t.f = { rstat := 3, rval := 0, rdata := 0x99 }) = true := by
  decide
theorem test_peek : stepTo (onF wrapped4 0x0004 0) (fun t => t.f.rdata = 0x58) = true ∧
    stepTo (onF wrapped4 0x0104 0) (fun t => t.f.rdata = 0x59) = true ∧
    stepTo (onF wrapped4 0x0204 0) (fun t => t.f.rdata = 0x5A ∧ t.f.rstat = 1) = true := by decide
theorem test_peek_out_of_range : stepTo (onF wrapped4 0x0304 0)
    (fun t => t.f = { rstat := 4, rval := 0, rdata := 0 } ∧ buffer t = buffer wrapped4) = true ∧
    stepTo (onF (block 4 0 0 []) 0x0004 0) (fun t => t.f.rstat = 4) = true := by decide
theorem test_lpush_on_port_b : stepTo (present (block 4 0 0 []) 0x0009 0x41 0x0000 0)
    (fun t => buffer t = (0, 1, [(0, 0x41)]) ∧ t.b.rstat = 1 ∧ t.f.rstat = 0) = true := by decide
theorem test_lpop : stepTo (onF (block 4 0 1 [(0, 0x41)]) 0x000A 0)
    (fun t => buffer t = (1, 0, [(0, 0x41)]) ∧ t.f.rdata = 0x41 ∧ t.f.rstat = 1) = true ∧
    stepTo (onF (block 4 1 0 []) 0x000A 0) (fun t => t.f.rstat = 3 ∧ t.f.rdata = 0) = true := by
  decide

/-! ### The cycle: L2.7, L2.8 -/

theorem test_b_push_f_pop : stepTo (present (block 2 0 0 []) 0x0001 0x10 0x0002 0)
    (fun t => buffer t = (1, 0, [(0, 0x10)]) ∧ t.b.rstat = 1 ∧ t.f.rstat = 1 ∧ t.f.rdata = 0x10) =
    true := by decide
theorem test_b_push_f_push : stepTo (present (block 2 0 1 [(0, 0x10)]) 0x0001 0x11 0x0001 0x12)
    (fun t => buffer t = (0, 2, [(0, 0x10), (1, 0x11)]) ∧ t.b.rstat = 1 ∧ t.f.rstat = 2) = true := by
  decide
theorem test_b_pop_f_peek : stepTo (present (block 4 0 3 [(0, 1), (1, 2), (2, 3)]) 0x0002 0 0x0004 0)
    (fun t => buffer t = (1, 2, [(0, 1), (1, 2), (2, 3)]) ∧ t.b.rdata = 1 ∧ t.f.rdata = 2) =
    true := by decide
theorem test_reset_discards_commands : stepTo
    { block 4 2 3 [(0, 7), (2, 8), (3, 9)] with
      f := { rstat := 1, rval := 3, rdata := 0x5A }, b := { rstat := 2, rval := 1, rdata := 0x10 },
      inputs := [{ rst := true, fCmd := 0x0002, fWdata := 0, bCmd := 0x0001, bWdata := 0x77 }] }
    (fun t => t = { block 4 0 0 [(0, 7), (2, 8), (3, 9)] with written := [] }) = true := by decide
theorem test_placed_word_runs_first_after_reset : stepTo (State.reset.withFetchWord 16 0x0009)
    (fun t => buffer t = (0, 1, [(0, 0)]) ∧ t.f.rstat = 1 ∧ t.b.rstat = 0) = true := by decide
theorem test_status_outputs_after_reset : statusOutputs State.reset = .next
    { empty := true, full := false, count := 0, ridx := 0, widx := 0, cap := 4 } := rfl

/-- R25's numbers, widths and reset values. -/
theorem test_registers_by_number : (List.range 9).map Reg.ofNumber =
    [some .ridx, some .count, some .fRstat, some .fRval, some .fRdata, some .bRstat, some .bRval,
      some .bRdata, none] ∧
    [Reg.ridx, .count, .fRstat, .fRval, .fRdata].map (Reg.width { N := 4, W := 16 }) =
    [8, 8, 3, 8, 16] ∧ wrapped4.readReg .ridx = 3 := by decide

/-! ### Stops: R5, R19, R27, R109 -/

theorem test_zero_capacity_is_refused :
    step (block 0 0 0 []) = .refused .illegalConfiguration := rfl
theorem test_command_before_reset_is_refused :
    step { onF (block 4 0 0 []) 0x0001 1 with wasReset := false } = .refused .beforeFirstReset := rfl
theorem test_broken_state_faults : step (onF (block 4 0 5 []) 0x0007 0) = .fault .brokenInvariant ∧
    step (onF (block 4 0 1 []) 0x0007 0) = .fault .brokenInvariant := ⟨rfl, rfl⟩
/-- R19: a valid slot that no push has written since reset, and a reset edge in a broken state. -/
theorem test_stale_valid_slot_and_reset_edge_fault :
    step (onF { full1 with written := [] } 0x0007 0) = .fault .brokenInvariant ∧
    step { block 4 0 5 [] with inputs := [{ idleInput with rst := true }] } =
      .fault .brokenInvariant ∧
    isNext (step { block 4 0 5 [] with
      wasReset := false, inputs := [{ idleInput with rst := true }] }) = true := ⟨rfl, rfl, rfl⟩
/-- R27, R80, R105: a push writes its slot; CLEAR keeps the record of it, reset starts a new one. -/
theorem test_written_slots : stepTo (present wrapped4 0x0001 5 0x0003 0)
    (fun t => t.written = [0, 1, 2, 3]) = true ∧
    stepTo { wrapped4 with inputs := [{ idleInput with rst := true }] }
    (fun t => t.written = [] ∧ t.slots = wrapped4.slots) = true := by decide
theorem test_outputs_stop_where_commands_do :
    statusOutputs (block 4 0 5 []) = .fault .brokenInvariant ∧
    outputs (block 4 4 0 []) = .fault .brokenInvariant ∧
    statusOutputs (block 256 0 0 []) = .refused .illegalConfiguration ∧
    outputs (block 300 0 0 []) = .refused .illegalConfiguration ∧
    outputs { full4 with wasReset := false } = .refused .beforeFirstReset :=
  ⟨rfl, rfl, rfl, rfl, rfl⟩
theorem test_slot_with_no_value_faults : memRead (block 4 0 0 []) 2 = .error .slotNoValue ∧
    memRead (block 4 0 0 []) 4 = .error .noSuchSlot := by decide

/-! ### Assembler: R51, R52, the lines of programs P2, P3 and P5 -/

theorem test_assembles_both_ports : (readLine "B: PUSH 0x12 | F: QSIZE".toList).map
    (fun l => assemble l 0 0) =
    some { rst := false, fCmd := 0x0007, fWdata := 0, bCmd := 0x0001, bWdata := 0x12 } := by decide
theorem test_assembles_raw_word_and_number : (readLine "t=13 F: .word 0x0101".toList).map
    (fun l => (l.t, assemble l 0x99 0)) =
    some (some 13, { rst := false, fCmd := 0x0101, fWdata := 0x99, bCmd := 0x0000, bWdata := 0 }) := by
  decide
/-- R51 writes a raw word `0xhhhh`: no decimal number, no other count of digits (log 14). -/
theorem test_raw_word_has_four_hexadecimal_digits :
    readLine "F: .word 012345".toList = none ∧ readLine "F: .word 0x101".toList = none ∧
    readLine "F: .word 0x0001F".toList = none ∧ (readLine "F: .word 0xFF04".toList).map (·.f) =
    some (some (.word 0xFF04)) := by decide
theorem test_assembles_pushref_and_peek : (readLine "B: PUSHREF 65 | F: PEEK 2".toList).map
    (fun l => assemble l 0 0) =
    some { rst := false, fCmd := 0x0204, fWdata := 0, bCmd := 0x0001, bWdata := 0x41 } := by decide
theorem test_no_locked_push_by_pointer : readLine "F: LPUSHREF 65".toList = none := by decide

/-! ### Witnesses: the hypotheses of each statement are met -/

/-- The states the witnesses below start from; State.reset also for
PlacedWordIsTheNextCommandOfPortF. -/
theorem witness_ready_states : full4.ready = true ∧ wrapped4.ready = true ∧ full1.ready = true ∧
    wide255.ready = true ∧ State.reset.ready = true := by decide

theorem witness_DecodeEncodeGivesTheCommandBack : (Instr.peek 255).wellFormed = true ∧
    Instr.pushref.wellFormed = true ∧ (Instr.illegal 0x000B).wellFormed = true := by decide
theorem witness_WrapIsOneConditionalSubtraction : configLegal { N := 255, W := 1 } = true ∧
    (254 : Sum).toNat < 255 ∧ 255 ≤ (255 : Sum).toNat ∧ (509 : Sum).toNat < 2 * 255 ∧
    2 * 255 ≤ (510 : Sum).toNat := by decide
theorem witness_WriteIndexIsRidxPlusCountModN : full4.ready = true ∧ full4.count.toNat = full4.cfg.N ∧
    State.reset.ready = true ∧ State.reset.count.toNat = 0 := by decide
theorem witness_PhysicalIndexIsRidxPlusPositionModN : wrapped4.ready = true ∧
    (2 : Idx).toNat < wrapped4.count.toNat ∧ (0 : Idx).toNat < wrapped4.count.toNat := by decide
theorem witness_CursorAdvancesByOneModN : configLegal { N := 255, W := 8 } = true ∧
    (253 : Idx).toNat + 1 < 255 ∧ (254 : Idx).toNat + 1 = 255 ∧ (254 : Idx).toNat < 255 := by decide
theorem witness_FlagsFollowTheCounter : configLegal full1.cfg = true ∧
    configLegal State.reset.cfg = true := by decide
theorem witness_FlagsExcludeEachOther : configLegal full1.cfg = true ∧
    configLegal wrapped4.cfg = true ∧ 0 < wrapped4.count.toNat ∧
    wrapped4.count.toNat + 1 = wrapped4.cfg.N := by decide
theorem witness_OutputsShowTheResponseRegisters : full4.ready = true := by decide
theorem witness_StatusOutputsShowTheRegisteredState : wide255.ready = true := by decide
theorem witness_PointerPairDeterminesCountModN : wrapped4.ready = true ∧
    writeIndex wrapped4 = .ok 2 := by decide
theorem witness_NopWritesNone : full1.ready = true := by decide
theorem witness_IllegalWordWritesOnlyItsStatus : legalWord 0x0011 = false ∧ full4.ready = true := by
  decide
/-- For QemptyAnswersWhetherCountIsZero, QfullAnswersWhetherCountIsN, QsizeAnswersCount and
QcapAnswersN. -/
theorem witness_QueryContracts : wrapped4.ready = true ∧ full4.ready = true ∧
    State.reset.ready = true := by decide
theorem witness_ClearEmptiesAndKeepsCursorAndSlots : full4.ready = true ∧
    State.reset.ready = true := by decide
/-- For PushStoresAtTheWriteIndex, PushrefIsPush and LpushHasTheContractOfPush: both clauses, and the
last count that has room. -/
theorem witness_PushContract : full4.ready = true ∧ full4.count.toNat = full4.cfg.N ∧
    wrapped4.ready = true ∧ wrapped4.count.toNat + 1 = wrapped4.cfg.N ∧
    State.reset.ready = true ∧ State.reset.count.toNat < State.reset.cfg.N ∧ full1.ready = true ∧
    full1.count.toNat = full1.cfg.N := by decide
/-- For PopReturnsTheOldestElement and LpopHasTheContractOfPop: both clauses. -/
theorem witness_PopContract : State.reset.ready = true ∧ State.reset.count.toNat = 0 ∧
    full1.ready = true ∧ 0 < full1.count.toNat := by decide
theorem witness_PeekReadsTheLogicalPosition : wrapped4.ready = true ∧
    wrapped4.count.toNat ≤ (3 : Idx).toNat ∧ (2 : Idx).toNat < wrapped4.count.toNat := by decide
theorem witness_LockedAndPlainRunsAgree :
    isNext (run 1 (onF full4 0x000A 0)) = true ∧ isFault (run 1 (onF (block 4 0 5 []) 0x000A 0)) = true ∧
    isRefused (run 1 (onF (block 0 0 0 []) 0x000A 0)) = true := by decide
/-- For CommandsKeepTheOtherPort, StatusCodesHaveTheirCauses, EachRegisterHasItsWriters and
CommandsThatMoveNoElementAreIdempotent: every command answers a next state. -/
theorem witness_commands_answer_next : ([Instr.nop, .push, .pop, .clear, .peek 0, .qempty, .qfull,
    .qsize, .qcap, .lpush, .lpop, .pushref, .illegal 0x000B].all fun i =>
    isNext (exec i wrapped4)) = true := by decide
theorem witness_FailedCommandsHaveNoOtherEffect : (match exec .push full4 with
    | .next t => decide (2 ≤ (t.regs full4.active).rstat.toNat)
    | .fault _ => false
    | .refused _ => false) = true := by decide
theorem witness_WrittenRecordsThePushesSinceReset : isNext (exec .push wrapped4) = true ∧
    Instr.push.pushes = true ∧ wrapped4.count.toNat < wrapped4.cfg.N ∧
    isNext (exec .push full4) = true ∧ full4.count.toNat = full4.cfg.N ∧
    isNext (exec .pop full4) = true ∧ Instr.pop.pushes = false ∧
    isNext (step { full4 with inputs := [{ idleInput with rst := true }] }) = true := by decide
theorem witness_DataPinsMatterOnlyToPushes : (decode 0x0002).pushes = false ∧
    (decode 0x0000).pushes = false ∧ ({ idleInput with rst := true } : CycleInput).rst = true ∧
    Instr.lpush.pushes = true ∧ wrapped4.ready = true ∧
    wrapped4.count.toNat < wrapped4.cfg.N := by decide
theorem witness_StepPerformsBothPortsCommands :
    configLegal (onF full4 0x0002 0).cfg = true ∧ decode (pins (onF full4 0x0002 0)).bCmd = .nop ∧
    decode (pins (onF full4 0x0002 0)).fCmd = .pop ∧ (pins (onF full4 0x0002 0)).rst = false ∧
    isNext (exec .nop { onF full4 0x0002 0 with active := .B }) = true := by decide
theorem witness_PortBIsPerformedFirst :
    (present (block 2 0 0 []) 0x0001 0x10 0x0002 0).ready = true ∧
    (present (block 2 0 1 [(0, 0x10)]) 0x0001 0x11 0x0001 0x12).ready = true := by decide
theorem witness_ClearAgainstTheOtherPort : (present wrapped4 0x0001 5 0x0003 0).ready = true ∧
    (present wrapped4 0x0003 0 0x0001 5).ready = true ∧ wrapped4.count.toNat < wrapped4.cfg.N ∧
    (present wrapped4 0x0002 0 0x0003 0).ready = true ∧ 0 < wrapped4.count.toNat := by decide
theorem witness_PeekAgainstTheOtherPort : (present wrapped4 0x0002 0 0x0104 0).ready = true ∧
    decode 0x0104 = .peek 1 ∧ (1 : Idx).toNat + 1 < wrapped4.count.toNat ∧ decode 0x0204 = .peek 2 ∧
    (2 : Idx).toNat + 1 = wrapped4.count.toNat ∧ decode 0x0304 = .peek 3 ∧
    (3 : Idx).toNat = wrapped4.count.toNat ∧ wrapped4.count.toNat < wrapped4.cfg.N := by decide
/-- For ResetLoadsTheResetState, ResetStateHasItsValuesAndTheInvariant and
ResetEstablishesTheInvariant. -/
theorem witness_ResetStatements : configLegal { N := 255, W := 1 } = true ∧ full4.ready = true ∧
    configLegal full4.cfg = true ∧
    (pins { full4 with inputs := [{ idleInput with rst := true }] }).rst = true ∧
    Memory.wf full4.slots = true ∧ Memory.fits full4.cfg full4.slots = true ∧
    isNext (run 1 { full4 with inputs := [{ idleInput with rst := true }] }) = true := by decide
theorem witness_ResetHeldLoadsTheResetStateAgain : full4.ready = true ∧
    ({ block 4 0 5 [] with wasReset := false } : State).wasReset = false ∧
    ∀ k ≤ 1, (([{ idleInput with rst := true }, { idleInput with rst := true }] :
      List CycleInput).getD k idleInput).rst = true := by decide
theorem witness_CommandsBeforeResetAreRefused :
    configLegal ({ full4 with wasReset := false } : State).cfg = true ∧
    ({ full4 with wasReset := false } : State).wasReset = false ∧ (pins full4).rst = false := by decide
theorem witness_IllegalConfigurationsAreRefused : (block 0 0 0 []).cfg.N = 0 ∧
    255 < (block 256 0 0 []).cfg.N ∧
    ({ full4 with cfg := { N := 4, W := 0 } } : State).cfg.W = 0 := by decide
theorem witness_BrokenStatesFault : configLegal (block 4 0 5 []).cfg = true ∧
    (block 4 0 5 []).wasReset = true ∧ (block 4 0 5 []).cfg.N < (block 4 0 5 []).count.toNat ∧
    (block 4 4 0 []).cfg.N ≤ (block 4 4 0 []).ridx.toNat ∧
    Memory.read (block 4 3 1 []).slots ((3 + 0) % 4) = none ∧ 5 < (6 : Stat).toNat ∧
    0 < ({ full1 with written := [] } : State).count.toNat ∧
    (0 + 0) % 1 ∉ ({ full1 with written := [] } : State).written := by decide
theorem witness_SlotAccessesFaultOutsideTheStoredSlots :
    (block 4 0 0 []).cfg.N ≤ (4 : Idx).toNat ∧ (3 : Idx).toNat < (block 4 0 0 []).cfg.N ∧
    Memory.read (block 4 0 0 []).slots (3 : Idx).toNat = none := by decide
/-- For StepKeepsTheInvariant and RegistersStayWithinTheirWidths. -/
theorem witness_StepKeepsTheInvariant : full4.inv = true ∧ wide255.inv = true ∧
    isNext (step (onF full4 0x0002 0)) = true ∧ (onF full4 0x0002 0).inv = true := by decide
/-- For BlockNeverStops, CommandsRefineThePlainQueue and RunsKeepFifoOrder. -/
theorem witness_RunStatements : (present full4 0x0002 0 0x0001 0x46).ready = true ∧
    isNext (run 3 (present full4 0x0002 0 0x0001 0x46)) = true := by decide
theorem witness_StaleSlotsAreHidden : (block 4 3 1 [(3, 0x42)]).ready = true ∧
    Memory.read [(0, 1), (3, 0x42)] ((3 + 0) % 4) = Memory.read [(3, 0x42)] ((3 + 0) % 4) ∧
    (3 + 0) % 4 ∈ [2, 3] ∧
    isNext (run 2 (block 4 3 1 [(3, 0x42)])) = true := by decide

end Sys2Proof.Tests
end

section
/-! PROOFS. The encoding: which words decode to ILLEGAL (spec/30_encoding.md R48), and what the ILLEGAL
response does (R49). -/

namespace Sys2Proof

/-- Each of the eleven OPs of R47 selects a command of its own, never the catch-all. -/
theorem decodeOp_of_le_ten {op : BitVec 4} (h : op.toNat ≤ 10) (idx : Idx) :
    ∃ i, decodeOp op idx = some i ∧ ∀ w, i ≠ .illegal w := by
  unfold decodeOp
  generalize op.toNat = n at h ⊢
  interval_cases n <;> exact ⟨_, rfl, nofun⟩

/-- A legal word decodes to the command its OP selects. -/
theorem decode_legal {w : Cmd} (h : legalWord w = true) :
    decodeOp (opField w) (idxField w) = some (decode w) := by
  obtain ⟨-, hop, -⟩ := (legalWord_iff w).1 h
  obtain ⟨i, hi, -⟩ := decodeOp_of_le_ten hop (idxField w)
  simp [decode, h, hi]

theorem decode_legal_ne_illegal {w : Cmd} (h : legalWord w = true) (v : Cmd) :
    decode w ≠ .illegal v := by
  obtain ⟨-, hop, -⟩ := (legalWord_iff w).1 h
  obtain ⟨i, hi, hne⟩ := decodeOp_of_le_ten hop (idxField w)
  rw [Option.some.inj ((decode_legal h).symm.trans hi)]
  exact hne v

theorem decode_eq_illegal_iff (w : Cmd) : decode w = .illegal w ↔ ¬ legalWord w = true :=
  ⟨fun hd hl => decode_legal_ne_illegal hl w hd,
    fun hl => decode_not_legal (Bool.eq_false_of_not_eq_true hl)⟩

/-- Settles O1: the decoder answers ILLEGAL on the words `legalWord` rejects, and `legalWord` is R48's
condition on the fields. -/
theorem illegalExactlyWhenNotLegal : Obligations.IllegalExactlyWhenNotLegal := fun w =>
  (decode_eq_illegal_iff w).trans (not_congr (legalWord_iff w))

end Sys2Proof

namespace Sys2Proof.Machine

/-- No command changes anything outside the buffer and its port's registers (R72). -/
theorem Effect.sameOutside {s t : State} (h : Effect s t) : s.SameOutside t :=
  ⟨h.cfg_eq, h.wasReset_eq, h.active_eq, h.inputs_eq, h.other_eq⟩

/-- A raised condition leaves the buffer as it is (R89). -/
theorem raise_sameBuffer (s : State) (c : Condition) : s.SameBuffer (raise s c) :=
  ⟨State.raise_ridx s c, State.raise_count s c, State.raise_slots s c⟩

theorem exec_illegal {s : State} (h : s.ready = true) (w : Cmd) :
    exec (.illegal w) s = .next (raise s (.illegal w)) := by
  rw [exec_eq_command]
  exact command_ready h _

/-- Settles O17: the ILLEGAL response is one raised condition, whose frame and whose code 5 are those
of `raise`. -/
theorem illegalWordWritesOnlyItsStatus : Obligations.IllegalWordWritesOnlyItsStatus := by
  intro w hw
  refine ⟨decode_not_legal hw, fun s hs => ?_⟩
  have he : Effect s (raise s (.illegal w)) := raise_effect s _
  have hready : (raise s (.illegal w)).ready = true :=
    State.ready_iff.2 (he.ready (State.ready_iff.1 hs))
  exact ⟨_, exec_illegal hs w, he.sameOutside, raise_sameBuffer s _, State.raise_regs_active s _, hready⟩

end Sys2Proof.Machine
end

section
/-! PROOFS. The index arithmetic, the flags and the status outputs (spec/40_index_arithmetic.md §1 to
§4). -/

namespace Sys2Proof.Machine

/-- Between N and 2N the residue is what one subtraction leaves. -/
theorem mod_eq_sub_of_lt_two_mul {a n : Nat} (h1 : n ≤ a) (h2 : a < 2 * n) : a % n = a - n := by
  rw [Nat.mod_eq_sub_mod h1, Nat.mod_eq_of_lt (by omega)]

/-- Settles O7: the three ranges of a sum, from the residue that `wrap` answers below `2N`. -/
theorem wrapIsOneConditionalSubtraction : Obligations.WrapIsOneConditionalSubtraction := by
  intro c a h
  refine ⟨fun hlt => ?_, fun hge hlt => ?_, fun hge => ?_⟩
  · obtain ⟨k, hk, hmod, -⟩ := wrap_ok h (a := a) (by omega)
    exact ⟨k, hk, hmod.trans (Nat.mod_eq_of_lt hlt)⟩
  · obtain ⟨k, hk, hmod, -⟩ := wrap_ok h hlt
    exact ⟨k, hk, hmod.trans (mod_eq_sub_of_lt_two_mul hge hlt)⟩
  · rw [wrap_eq h, if_neg (Nat.not_lt.2 hge)]

/-- Settles O10: the successor modulo N is the successor below `N - 1`, and at `N - 1` it is 0. -/
theorem cursorAdvancesByOneModN : Obligations.CursorAdvancesByOneModN := by
  intro c r h hr
  obtain ⟨k, hk, hmod, -⟩ := advance_ok h hr
  refine ⟨k, hk, fun hlt => hmod.trans (Nat.mod_eq_of_lt hlt), fun hlast => ?_⟩
  have hzero : k.toNat = 0 := by rw [hmod, hlast, Nat.mod_self]
  exact BitVec.eq_of_toNat_eq hzero

/-- The status logic and its checks read neither the pins nor the port being served. -/
theorem statusOutputs_pins (s : State) (cs : List CycleInput) (p : Port) :
    statusOutputs { s with inputs := cs, active := p } = statusOutputs s := rfl

/-- Settles O13: the outputs are those `statusOutputs_ready` lists, and pins and port play no part. -/
theorem statusOutputsShowTheRegisteredState :
    Obligations.StatusOutputsShowTheRegisteredState := by
  intro s hs
  have h : s.Ready := State.ready_iff.1 hs
  obtain ⟨k, hk, ho⟩ := statusOutputs_ready h
  exact ⟨_, ho, emptyFlag_iff, fullFlag_iff h.cap_le, rfl, rfl, hk, capIdx_toNat h.cap_le,
    fun cs p => (statusOutputs_pins s cs p).trans ho⟩

/-- Settles O11: each flag compares the counter with a constant, and N fits its 8 bits. -/
theorem flagsFollowTheCounter : Obligations.FlagsFollowTheCounter := by
  intro s h
  obtain ⟨-, hcap, -⟩ := configLegal_iff.1 h
  exact ⟨emptyFlag_iff, fullFlag_iff hcap⟩

end Sys2Proof.Machine
end

section
/-! PROOFS. NOP's word and effect (spec/41_command_cycle.md R73), by way of the encoder: a word is the
word of the command it decodes to (spec/30_encoding.md R46, R47). -/

namespace Sys2Proof

/-- The command an OP selects is encoded in the OP and, for PEEK alone, in the IDX (R47). -/
theorem encode_of_decodeOp {op : BitVec 4} {idx : Idx} {i : Instr} (hi : decodeOp op idx = some i)
    (hidx : op = 4 ∨ idx = 0) : encode i = (idx ++ (0 : BitVec 4) ++ op : BitVec 16) := by
  rcases hidx with rfl | rfl
  · have peek_word : ∀ k : Idx,
        encode (.peek k) = (k ++ (0 : BitVec 4) ++ (4 : BitVec 4) : BitVec 16) := by decide
    cases hi
    exact peek_word idx
  · have other_word : ∀ o : BitVec 4, ∀ j ∈ decodeOp o 0,
        encode j = ((0 : Idx) ++ (0 : BitVec 4) ++ o : BitVec 16) := by decide
    exact other_word op i hi

/-- Every word is the word of the command it decodes to. -/
theorem encode_decode (w : Cmd) : encode (decode w) = w := by
  by_cases hw : legalWord w = true
  · obtain ⟨hrsv, -, hidx⟩ := (legalWord_iff w).1 hw
    calc encode (decode w) = (idxField w ++ (0 : BitVec 4) ++ opField w : BitVec 16) :=
          encode_of_decodeOp (decode_legal hw) hidx
      _ = (idxField w ++ rsvField w ++ opField w : BitVec 16) := by rw [hrsv]
      _ = w := (word_eq_fields w).symm
  · rw [(decode_eq_illegal_iff w).2 hw]
    rfl

/-- A command that its own word decodes to is the command of that word alone. -/
theorem decode_eq_iff {i : Instr} (hi : decode (encode i) = i) (w : Cmd) :
    decode w = i ↔ w = encode i :=
  ⟨fun h => h ▸ (encode_decode w).symm, fun h => h ▸ hi⟩

end Sys2Proof

namespace Sys2Proof.Machine

theorem exec_nop {s : State} (h : s.ready = true) : exec .nop s = .next (s.setRstat statNone) := by
  rw [exec_eq_command]
  exact command_ready h _

/-- A write to a status register leaves the buffer as it is. -/
theorem setRstat_sameBuffer (s : State) (v : Stat) : s.SameBuffer (s.setRstat v) :=
  ⟨State.setRstat_ridx s v, State.setRstat_count s v, State.setRstat_slots s v⟩

/-- Settles O16: NOP's word is its encoding, and its effect is one write of the status register. -/
theorem nopWritesNone : Obligations.NopWritesNone := by
  refine ⟨fun w => decode_eq_iff (by decide) w, fun s hs => ?_⟩
  have hnop := exec_nop hs
  exact ⟨_, hnop, (exec_next_effect hnop).sameOutside, setRstat_sameBuffer s _,
    State.setRstat_regs_active s _⟩

end Sys2Proof.Machine
end

section
/-! PROOFS. The contracts of Safety.lean for the commands whose body is the shared push or the shared
pop (spec/43_push_pop_clear.md R81, R83; spec/45_locked.md R85, R86). -/

namespace Sys2Proof.Machine

/-- In a ready state a command answers what its body does. -/
theorem exec_of_body {i : Instr} {s t : State} (h : s.ready = true) (hb : execBody i s = .ok t) :
    exec i s = .next t := by
  rw [exec_eq_command, hb, command_ready h]

/-- A command whose body is the shared push has the contract of R81. -/
theorem pushContract_of_body {i : Instr} (hi : ∀ s, execBody i s = pushElement s (pushOperand s)) :
    PushContract i := by
  intro s hs
  have h := State.ready_iff.1 hs
  refine ⟨fun hfull => ?_, fun hroom => ?_⟩
  · have he : exec i s = .next (raise s .full) :=
      exec_of_body hs ((hi s).trans (pushElement_full h hfull _))
    exact ⟨_, he, (exec_next_effect he).sameOutside, raise_sameBuffer s _,
      State.raise_regs_active s _⟩
  · obtain ⟨k, hk, hslot, -, hpush⟩ := pushElement_room h (Nat.ne_of_lt hroom) (pushOperand s)
    have he := exec_of_body hs ((hi s).trans hpush)
    have hcap := h.cap_le
    have hcount : (((s.storeSlot k.toNat (pushOperand s)).setCount (s.count + 1)).setRstat
        statOk).count.toNat = s.count.toNat + 1 := by
      rw [State.setRstat_count, State.setCount_count, BitVec.toNat_add,
        show (1 : Idx).toNat = 1 from rfl]
      omega
    refine ⟨_, k, he, (exec_next_effect he).sameOutside, by simp, hcount,
      State.setRstat_regs_active _ _, hk, hslot, ?_, fun a ha => ?_, ?_, ?_⟩
    · simp only [State.setRstat_slots, State.setCount_slots, State.storeSlot_slots,
        Memory.read_write_same]
      rfl
    · simpa using Memory.read_write_other s.slots (pushOperand s) ha
    · rw [← Bool.not_eq_true, emptyFlag_iff, hcount]
      omega
    · rw [fullFlag_iff (by simpa using hcap), hcount]
      simp

/-- A command whose body is the shared pop has the contract of R83. -/
theorem popContract_of_body {i : Instr} (hi : ∀ s, execBody i s = popElement s) :
    PopContract i := by
  intro s hs
  have h := State.ready_iff.1 hs
  refine ⟨fun hempty => ?_, fun hsome => ?_⟩
  · have he : exec i s = .next (raise s .empty) :=
      exec_of_body hs ((hi s).trans (popElement_empty hempty))
    exact ⟨_, he, (exec_next_effect he).sameOutside, raise_sameBuffer s _,
      State.raise_regs_active s _⟩
  · obtain ⟨v, k, hv, -, hk, -, hpop⟩ := popElement_some h (Nat.ne_of_gt hsome)
    have he := exec_of_body hs ((hi s).trans hpop)
    have hcap := h.cap_le
    have hle := h.count_le
    have hcount : ((((s.setRdata v).setRidx k).setCount (s.count - 1)).setRstat
        statOk).count.toNat + 1 = s.count.toNat := by
      rw [State.setRstat_count, State.setCount_count, BitVec.toNat_sub,
        show (1 : Idx).toNat = 1 from rfl]
      omega
    refine ⟨_, v, he, (exec_next_effect he).sameOutside, hv, ?_, by simpa using hk, hcount, by simp,
      ?_, ?_⟩
    · simp [State.setRstat, State.setRdata, statOk]
    · rw [← Bool.not_eq_true, fullFlag_iff (by simpa using hcap)]
      simp only [State.setRstat_cfg, State.setCount_cfg, State.setRidx_cfg, State.setRdata_cfg]
      omega
    · rw [emptyFlag_iff]
      omega

theorem push_contract : PushContract .push := pushContract_of_body fun _ => rfl

theorem pop_contract : PopContract .pop := popContract_of_body fun _ => rfl

end Sys2Proof.Machine
end

section
/-! PROOFS. The clock cycle (spec/41_command_cycle.md R68, R69, R72): one edge as B's command and then
F's, each from the state before it. -/

namespace Sys2Proof.Machine

/-- Settles O30: no effect of a command reaches outside the buffer and its own port's registers. -/
theorem commandsKeepTheOtherPort : Obligations.CommandsKeepTheOtherPort :=
  fun _ _ _ h => (exec_next_effect h).sameOutside

/-- A state that breaks the invariants after a reset edge faults on every command (R19). -/
theorem exec_broken {s : State} (hc : configLegal s.cfg = true) (hb : broken s = true) (i : Instr) :
    exec i s = .fault .brokenInvariant := by
  simp only [broken, Bool.and_eq_true, Bool.not_eq_true'] at hb
  rw [exec_eq_command, command_broken hc hb.1 hb.2]

/-- With `rst` low an edge is B's command and then F's, in a broken state too, where B's command faults
as the edge does. -/
theorem step_rst_low {s : State} (hc : configLegal s.cfg = true) (hr : (pins s).rst = false) :
    step s =
      andThen (execPort .B s) fun s1 => andThen (execPort .F s1) fun s2 => .next s2.endCycle := by
  cases hb : broken s with
  | false => exact step_commands_eq hc hb hr
  | true =>
    have hB : execPort .B s = .fault .brokenInvariant := exec_broken (s := s.serve .B) hc hb _
    rw [step_broken hc hb, hB]
    rfl

/-- After B's command the edge goes on with the command F presented in the same cycle, from the state
B left. -/
theorem step_after_B {s s1 : State} (hc : configLegal s.cfg = true) (hr : (pins s).rst = false)
    (h1 : exec (decode (pins s).bCmd) (s.serve .B) = .next s1) :
    step s =
      andThen (exec (decode (pins s).fCmd) (s1.serve .F)) fun s2 => .next s2.endCycle := by
  have hB : execPort .B s = .next s1 := h1
  have hpins : pins s1 = pins s := (exec_next_effect h1).pins_eq
  have hF : execPort .F s1 = exec (decode (pins s).fCmd) (s1.serve .F) := by
    rw [execPort, hpins]
    rfl
  rw [step_rst_low hc hr, hB, ← hF]
  rfl

theorem step_of_both_next {s s1 s2 : State} (hc : configLegal s.cfg = true)
    (hr : (pins s).rst = false) (h1 : exec (decode (pins s).bCmd) (s.serve .B) = .next s1)
    (h2 : exec (decode (pins s).fCmd) (s1.serve .F) = .next s2) : step s = .next s2.endCycle := by
  rw [step_after_B hc hr h1, h2]
  rfl

/-- Two commands use up no pins, so the cycle ends with the tail of the pins it began with. -/
theorem endCycle_after_both {s s1 s2 : State} {i j : Instr}
    (h1 : exec i (s.serve .B) = .next s1) (h2 : exec j (s1.serve .F) = .next s2) :
    s2.endCycle = { s2 with inputs := s.inputs.tail, active := .B } := by
  have hinputs : s2.inputs = s.inputs :=
    (exec_next_effect h2).inputs_eq.trans (exec_next_effect h1).inputs_eq
  rw [State.endCycle, hinputs]

/-- Settles O37: a reset edge by `step_reset`; with `rst` low B's outcome ends the edge or hands it to
F's command. -/
theorem stepPerformsBothPortsCommands : Obligations.StepPerformsBothPortsCommands := by
  rintro s ib jf hc rfl rfl
  have stops (hr : (pins s).rst = false) {o} (ho : exec (decode (pins s).bCmd) (s.serve .B) = o) :
      step s = andThen o fun s1 => andThen (execPort .F s1) fun s2 => .next s2.endCycle :=
    ho ▸ step_rst_low hc hr
  refine ⟨fun hr hs => ?_, fun hr s1 h1 => ⟨fun s2 h2 => ?_, fun r h2 => ?_, fun r h2 => ?_⟩,
    fun hr r h1 => stops hr h1, fun hr r h1 => stops hr h1⟩
  · have hb : broken s = false :=
      hs.elim (fun h => broken_eq_false_iff.2 (.inl h)) fun h => (State.ready_iff.1 h).not_broken
    exact step_reset hc hb hr
  · rw [step_of_both_next hc hr h1 h2, endCycle_after_both h1 h2]
  · exact (step_after_B hc hr h1).trans (congrArg (andThen · _) h2)
  · exact (step_after_B hc hr h1).trans (congrArg (andThen · _) h2)

/-- A command leaves a state in which either port's next command is performed. -/
theorem exec_next_serve_ready {s t : State} {i : Instr} (h : exec i s = .next t) (p : Port) :
    (t.serve p).ready = true :=
  State.ready_iff.2 (((exec_next_effect h).ready (State.ready_iff.1 (exec_next_ready h))).serve p)

/-- Both commands of a cycle answer in a ready state, F's from the state B left. -/
theorem both_commands_next {s : State} (hs : s.ready = true) (i j : Instr) :
    ∃ s1 s2, exec i (s.serve .B) = .next s1 ∧ exec j (s1.serve .F) = .next s2 := by
  obtain ⟨s1, h1, -⟩ := exec_effect (s := s.serve .B) hs i
  obtain ⟨s2, h2, -⟩ := exec_effect (exec_next_serve_ready h1 .F) j
  exact ⟨s1, s2, h1, h2⟩

/-- R69's first example: F pops what B has just pushed on an empty buffer, since the slot of the only
element is the read cursor. -/
theorem push_then_pop_on_empty {s : State} (hs : s.ready = true) (hempty : s.count.toNat = 0) :
    ∃ s1 s2, exec .push (s.serve .B) = .next s1 ∧ exec .pop (s1.serve .F) = .next s2 ∧
      s2.f.rdata = (pins s).bWdata % 2 ^ s.cfg.W ∧ s2.f.rstat = 1 ∧ s2.b.rstat = 1 ∧
      s2.count = 0 := by
  have h := State.ready_iff.1 hs
  have hroom : (s.serve .B).count.toNat < (s.serve .B).cfg.N := by
    have := h.cap_pos
    simp only [State.serve_count, State.serve_cfg]
    omega
  obtain ⟨s1, k, h1, -, hridx, hcount1, hregs1, -, hk, hslot, -⟩ :=
    (push_contract (s.serve .B) hs).2 hroom
  have hone : s1.count.toNat = 1 := by rw [hcount1, State.serve_count, hempty]
  obtain ⟨s2, v, h2, ⟨-, -, -, -, hother⟩, hv, hregs2, -, hcount2, -⟩ :=
    (pop_contract (s1.serve .F) (exec_next_serve_ready h1 .F)).2 (by simp [hone])
  have hcursor : k.toNat = s1.ridx.toNat := by
    rw [hk, hridx, State.serve_count, hempty]
    exact Nat.mod_eq_of_lt h.ridx_lt
  have hvalue : (s.serve .B).presented = v := by
    rw [hcursor] at hslot
    exact Option.some.inj (hslot.symm.trans hv)
  refine ⟨s1, s2, h1, h2, ?_, ?_, ?_, ?_⟩
  · exact (congrArg PortRegs.rdata hregs2).trans hvalue.symm
  · exact congrArg PortRegs.rstat hregs2
  · exact (congrArg PortRegs.rstat hother).trans (congrArg PortRegs.rstat hregs1)
  · apply BitVec.eq_of_toNat_eq
    simp only [State.serve_count, hone] at hcount2
    simpa using hcount2

/-- R69's second example: B's push takes the last slot, so F's push finds the buffer full. -/
theorem push_then_push_at_last_slot {s : State} (hs : s.ready = true)
    (hlast : s.count.toNat + 1 = s.cfg.N) :
    ∃ s1 s2, exec .push (s.serve .B) = .next s1 ∧ exec .push (s1.serve .F) = .next s2 ∧
      s2.b.rstat = 1 ∧ s2.f.rstat = 2 ∧ s2.count.toNat = s.cfg.N := by
  obtain ⟨s1, -, h1, ⟨hcfg, -⟩, -, hcount1, hregs1, -⟩ :=
    (push_contract (s.serve .B) hs).2 (Nat.lt_of_succ_le hlast.le)
  have hN : s1.count.toNat = s.cfg.N := hcount1.trans hlast
  have hfull : (s1.serve .F).count.toNat = (s1.serve .F).cfg.N :=
    hN.trans (congrArg Config.N hcfg).symm
  obtain ⟨s2, h2, ⟨-, -, -, -, hother⟩, ⟨-, hcount2, -⟩, hregs2⟩ :=
    (push_contract (s1.serve .F) (exec_next_serve_ready h1 .F)).1 hfull
  refine ⟨s1, s2, h1, h2, ?_, ?_, ?_⟩
  · exact (congrArg PortRegs.rstat hother).trans (congrArg PortRegs.rstat hregs1)
  · exact congrArg PortRegs.rstat hregs2
  · exact (congrArg BitVec.toNat hcount2).trans hN

/-- Settles O39: the edge is the two commands in order, and each example is the contracts of its two
commands, F's applied to the state B's has left. -/
theorem portBIsPerformedFirst : Obligations.PortBIsPerformedFirst := by
  intro s hs hr
  have hc : configLegal s.cfg = true := (State.ready_iff.1 hs).legal
  have hpush : decode 0x0001 = .push := by decide
  have hpop : decode 0x0002 = .pop := by decide
  refine ⟨?_, fun hB hF hempty => ?_, fun hB hF hlast => ?_⟩
  · obtain ⟨s1, s2, h1, h2⟩ := both_commands_next hs (decode (pins s).bCmd) (decode (pins s).fCmd)
    exact ⟨s1, s2, h1, h2, step_of_both_next hc hr h1 h2⟩
  · obtain ⟨s1, s2, h1, h2, hresult⟩ := push_then_pop_on_empty hs hempty
    rw [← hpush, ← hB] at h1
    rw [← hpop, ← hF] at h2
    exact ⟨_, step_of_both_next hc hr h1 h2, hresult⟩
  · obtain ⟨s1, s2, h1, h2, hresult⟩ := push_then_push_at_last_slot hs hlast
    rw [← hpush, ← hB] at h1
    rw [← hpush, ← hF] at h2
    exact ⟨_, step_of_both_next hc hr h1 h2, hresult⟩

end Sys2Proof.Machine
end

section
/-! PROOFS. The queries (spec/42_queries.md R76 to R79): one contract for every command whose body
answers a value, and the value of each. -/

namespace Sys2Proof.Machine

/-- A query leaves the buffer as it is. -/
theorem queryValue_sameBuffer (s : State) (v : Idx) : s.SameBuffer (queryValue s v) := by
  simp [State.SameBuffer, queryValue]

/-- A query writes the value and the status OK to the registers of its port, and keeps the data. -/
theorem queryValue_regs_active (s : State) (v : Idx) :
    (queryValue s v).regs s.active = { s.regs s.active with rval := v, rstat := statOk } := by
  simp [queryValue, State.setRstat, State.setRval]

/-- A flag's value is 1 where what the flag says holds, else 0. -/
theorem flagValue_toNat {b : Bool} {P : Prop} [Decidable P] (h : b = true ↔ P) :
    (flagValue b).toNat = if P then 1 else 0 := by
  rw [flagValue_eq]
  by_cases hP : P
  · rw [if_pos (h.2 hP), if_pos hP]
    rfl
  · rw [if_neg (mt h.1 hP), if_neg hP]
    rfl

/-- A command whose body answers the index value `v` has the contract of a query for the number `v`
stands for in a ready state. -/
theorem queryContract_of_body {i : Instr} {v : State → Idx} {value : State → Nat}
    (hi : ∀ s, execBody i s = .ok (queryValue s (v s)))
    (hv : ∀ s : State, s.Ready → (v s).toNat = value s) : QueryContract i value := by
  intro s hs
  have he : exec i s = .next (queryValue s (v s)) := exec_of_body hs (hi s)
  refine ⟨_, he, (exec_next_effect he).sameOutside, queryValue_sameBuffer s _, ?_⟩
  rw [queryValue_regs_active]
  exact ⟨hv s (State.ready_iff.1 hs), rfl, rfl⟩

/-- Settles O18: the value is the empty flag, which says that the counter is 0. -/
theorem qemptyAnswersWhetherCountIsZero : Obligations.QemptyAnswersWhetherCountIsZero :=
  ⟨decode_eq_iff (by decide),
    queryContract_of_body (fun _ => rfl) fun _ _ => flagValue_toNat emptyFlag_iff⟩

/-- Settles O19: the value is the full flag, which says that the counter is N, since N fits 8 bits. -/
theorem qfullAnswersWhetherCountIsN : Obligations.QfullAnswersWhetherCountIsN :=
  ⟨decode_eq_iff (by decide),
    queryContract_of_body (fun _ => rfl) fun _ h => flagValue_toNat (fullFlag_iff h.cap_le)⟩

/-- Settles O20: the value is the counter itself. -/
theorem qsizeAnswersCount : Obligations.QsizeAnswersCount :=
  ⟨decode_eq_iff (by decide), queryContract_of_body (fun _ => rfl) fun _ _ => rfl⟩

/-- Settles O21: the value is N on the width of an index, which N fits. -/
theorem qcapAnswersN : Obligations.QcapAnswersN :=
  ⟨decode_eq_iff (by decide), queryContract_of_body (fun _ => rfl) fun _ h => capIdx_toNat h.cap_le⟩

end Sys2Proof.Machine
end

section
/-! PROOFS. Clear, push and pop (spec/43_push_pop_clear.md R80, R81, R83). -/

namespace Sys2Proof.Machine

theorem exec_clear {s : State} (h : s.ready = true) :
    exec .clear s = .next ((s.setCount 0).setRstat statOk) :=
  exec_of_body h rfl

/-- Settles O22: CLEAR's word is its encoding; its effect is one write of the counter and one of the
status register, and a counter of 0 is not N, which is at least 1. -/
theorem clearEmptiesAndKeepsCursorAndSlots : Obligations.ClearEmptiesAndKeepsCursorAndSlots := by
  refine ⟨decode_eq_iff (by decide), fun s hs => ?_⟩
  have h := State.ready_iff.1 hs
  have he := exec_clear hs
  have hcount : ((s.setCount 0).setRstat statOk).count.toNat = 0 := by simp
  have hcfg : ((s.setCount 0).setRstat statOk).cfg = s.cfg := by simp
  refine ⟨_, he, (exec_next_effect he).sameOutside, by simp, by simp, by simp,
    State.setRstat_regs_active _ _, emptyFlag_iff.2 hcount, ?_⟩
  rw [← Bool.not_eq_true, fullFlag_iff (hcfg ▸ h.cap_le), hcount, hcfg]
  exact Nat.ne_of_lt h.cap_pos

/-- Settles O23: PUSH's word is its encoding, and its body is the shared push. -/
theorem pushStoresAtTheWriteIndex : Obligations.PushStoresAtTheWriteIndex :=
  ⟨decode_eq_iff (by decide), push_contract⟩

/-- Settles O25: POP's word is its encoding, and its body is the shared pop. -/
theorem popReturnsTheOldestElement : Obligations.PopReturnsTheOldestElement :=
  ⟨decode_eq_iff (by decide), pop_contract⟩

end Sys2Proof.Machine
end

section
/-! PROOFS. Indexed access (spec/44_indexed_access.md R84, R93). -/

namespace Sys2Proof

/-- PEEK's word as a number: the index in the upper byte, PEEK's OP below it (R45, R47). -/
theorem encode_peek (i : Idx) : encode (.peek i) = BitVec.ofNat 16 (i.toNat * 256 + 4) := by
  have hor : i.toNat * 256 + 4 = i.toNat <<< 8 ||| 4 := by
    rw [← Nat.shiftLeft_add_eq_or_of_lt (by decide), Nat.shiftLeft_eq]
  have hshift : i.setWidth 16 <<< 8 = BitVec.ofNat 16 (i.toNat <<< 8) :=
    BitVec.eq_of_toNat_eq (by simp [Nat.shiftLeft_eq])
  rw [encode, hshift, hor, BitVec.ofNat_or]
  rfl

theorem opField_encode_peek (i : Idx) : opField (encode (.peek i)) = 4 := by
  apply BitVec.eq_of_toNat_eq
  rw [encode_peek, opField, BitVec.extractLsb'_toNat, BitVec.toNat_ofNat, Nat.shiftRight_zero,
    show (4 : BitVec 4).toNat = 4 from rfl]
  omega

theorem idxField_encode_peek (i : Idx) : idxField (encode (.peek i)) = i := by
  apply BitVec.eq_of_toNat_eq
  have hi := i.isLt
  rw [encode_peek, idxField, BitVec.extractLsb'_toNat, BitVec.toNat_ofNat, Nat.shiftRight_eq_div_pow]
  omega

/-- PEEK's word is legal for every index, and its OP selects PEEK at the IDX field (R47, R48). -/
theorem decode_encode_peek (i : Idx) : decode (encode (.peek i)) = .peek i := by
  have h := decode_legal (Laws.EncodesLegally.peek i rfl)
  rw [opField_encode_peek, idxField_encode_peek] at h
  exact (Option.some.inj h).symm

end Sys2Proof

namespace Sys2Proof.Machine

theorem peekOperand_toNat (i : Idx) : (peekOperand i).toNat = i.toNat := zext9_toNat i

theorem setRdata_ok_sameBuffer (s : State) (v : Elem) :
    s.SameBuffer ((s.setRdata v).setRstat statOk) := by
  simp [State.SameBuffer]

theorem setRdata_ok_regs_active (s : State) (v : Elem) :
    ((s.setRdata v).setRstat statOk).regs s.active =
      { s.regs s.active with rdata := v, rstat := statOk } := by
  simp [State.setRstat, State.setRdata]

/-- From the counter on, PEEK raises OutOfRange (R93). -/
theorem exec_peek_range {s : State} (hs : s.ready = true) {i : Idx}
    (hi : s.count.toNat ≤ i.toNat) :
    exec (.peek i) s = .next (raise s (.outOfRange (peekOperand i))) :=
  exec_of_body hs (peekElement_range (by rwa [peekOperand_toNat]))

/-- Below the counter, PEEK answers the element of the slot of its logical position (R55, R84). -/
theorem exec_peek_valid {s : State} (hs : s.ready = true) {i : Idx}
    (hi : i.toNat < s.count.toNat) :
    ∃ k v, physIndex s (zext9 i) = .ok k ∧ k.toNat = slotOf s i.toNat ∧
      Memory.read s.slots k.toNat = some v ∧
      exec (.peek i) s = .next ((s.setRdata v).setRstat statOk) := by
  obtain ⟨v, k, hk, hslot, -, hv, hpeek⟩ :=
    peekElement_valid (State.ready_iff.1 hs) (i := peekOperand i) (by rwa [peekOperand_toNat])
  rw [peekOperand_toNat] at hslot
  exact ⟨k, v, hk, hslot, hv, exec_of_body hs hpeek⟩

/-- Settles O26: PEEK i's word is its encoding; from the counter on it is one raised condition, and
below it one write of the data register and the status, the value read at `phys(i)`. -/
theorem peekReadsTheLogicalPosition : Obligations.PeekReadsTheLogicalPosition := by
  intro i
  refine ⟨fun w => encode_peek i ▸ decode_eq_iff (decode_encode_peek i) w, fun s hs =>
    ⟨fun hrange => ?_, fun hvalid => ?_⟩⟩
  · have he := exec_peek_range hs hrange
    exact ⟨_, he, (exec_next_effect he).sameOutside, raise_sameBuffer s _,
      State.raise_regs_active s _⟩
  · obtain ⟨k, v, hk, hslot, hv, he⟩ := exec_peek_valid hs hvalid
    exact ⟨_, k, v, he, (exec_next_effect he).sameOutside, setRdata_ok_sameBuffer s v, hk, hslot, hv,
      setRdata_ok_regs_active s v⟩

end Sys2Proof.Machine
end

section
/-! PROOFS. Locked push and pop (spec/45_locked.md R85, R86, R88). -/

namespace Sys2Proof.Machine

/-- Settles O27: LPUSH's word is its encoding, and its body is the shared push. -/
theorem lpushHasTheContractOfPush : Obligations.LpushHasTheContractOfPush :=
  ⟨decode_eq_iff (by decide), pushContract_of_body fun _ => rfl⟩

/-- Settles O28: LPOP's word is its encoding, and its body is the shared pop. -/
theorem lpopHasTheContractOfPop : Obligations.LpopHasTheContractOfPop :=
  ⟨decode_eq_iff (by decide), popContract_of_body fun _ => rfl⟩

/-! ### Of the pins to come, a command reads only its own element operand -/

/-- The state with its pins to come replaced. -/
def State.mapInputs (s : State) (f : List CycleInput → List CycleInput) : State :=
  { s with inputs := f s.inputs }

section
variable (s : State) (f : List CycleInput → List CycleInput)

@[simp] theorem emptyFlag_mapInputs : emptyFlag (s.mapInputs f) = emptyFlag s := rfl
@[simp] theorem fullFlag_mapInputs : fullFlag (s.mapInputs f) = fullFlag s := rfl
@[simp] theorem writeIndex_mapInputs : writeIndex (s.mapInputs f) = writeIndex s := rfl
@[simp] theorem physIndex_mapInputs (i : Sum) :
    physIndex (s.mapInputs f) i = physIndex s i := rfl
@[simp] theorem memRead_mapInputs (k : Idx) : memRead (s.mapInputs f) k = memRead s k := rfl
@[simp] theorem State.mapInputs_cfg : (s.mapInputs f).cfg = s.cfg := rfl
@[simp] theorem State.mapInputs_ridx : (s.mapInputs f).ridx = s.ridx := rfl
@[simp] theorem State.mapInputs_count : (s.mapInputs f).count = s.count := rfl

@[simp] theorem State.setRidx_mapInputs (v : Idx) :
    (s.mapInputs f).setRidx v = (s.setRidx v).mapInputs f := rfl
@[simp] theorem State.setCount_mapInputs (v : Idx) :
    (s.mapInputs f).setCount v = (s.setCount v).mapInputs f := rfl
@[simp] theorem State.storeSlot_mapInputs (k : Nat) (v : Elem) :
    (s.mapInputs f).storeSlot k v = (s.storeSlot k v).mapInputs f := rfl
theorem State.setRegs_mapInputs (p : Port) (r : PortRegs) :
    (s.mapInputs f).setRegs p r = (s.setRegs p r).mapInputs f := by
  cases p <;> rfl
@[simp] theorem State.setRstat_mapInputs (v : Stat) :
    (s.mapInputs f).setRstat v = (s.setRstat v).mapInputs f := s.setRegs_mapInputs f ..
@[simp] theorem State.setRval_mapInputs (v : Idx) :
    (s.mapInputs f).setRval v = (s.setRval v).mapInputs f := s.setRegs_mapInputs f ..
@[simp] theorem State.setRdata_mapInputs (v : Elem) :
    (s.mapInputs f).setRdata v = (s.setRdata v).mapInputs f := s.setRegs_mapInputs f ..
@[simp] theorem raise_mapInputs (c : Condition) :
    raise (s.mapInputs f) c = (raise s c).mapInputs f := s.setRstat_mapInputs f _
@[simp] theorem queryValue_mapInputs (v : Idx) :
    queryValue (s.mapInputs f) v = (queryValue s v).mapInputs f := by
  simp [queryValue]

@[simp] theorem memWrite_mapInputs (k : Idx) (v : Elem) :
    memWrite (s.mapInputs f) k v = (memWrite s k v).map (·.mapInputs f) := by
  by_cases hk : k.toNat < s.cfg.N
  · rw [memWrite_ok hk, memWrite_ok (s := s.mapInputs f) hk]
    rfl
  · simp [memWrite, Nat.not_lt.1 hk, Except.map]

theorem pushElement_mapInputs (v : Elem) :
    pushElement (s.mapInputs f) v = (pushElement s v).map (·.mapInputs f) := by
  by_cases hf : fullFlag s = true
  · simp [pushElement, hf, Except.map]
  · cases hk : writeIndex s with
    | error => simp [pushElement, hf, hk, Except.map]
    | ok k => cases ht : memWrite s k v <;> simp [pushElement, hf, hk, ht, Except.map]

theorem popElement_mapInputs :
    popElement (s.mapInputs f) = (popElement s).map (·.mapInputs f) := by
  by_cases he : emptyFlag s = true
  · simp [popElement, he, Except.map]
  · cases hv : memRead s s.ridx with
    | error => simp [popElement, he, hv, Except.map]
    | ok v => cases hk : advance s.cfg s.ridx <;> simp [popElement, he, hv, hk, Except.map]

theorem peekElement_mapInputs (i : Sum) :
    peekElement (s.mapInputs f) i = (peekElement s i).map (·.mapInputs f) := by
  by_cases hi : zext9 s.count ≤ i
  · simp [peekElement, hi, Except.map]
  · cases hk : physIndex s i with
    | error => simp [peekElement, hi, hk, Except.map]
    | ok k => cases hv : memRead s k <;> simp [peekElement, hi, hk, hv, Except.map]

/-- The checks of a command do not look at the pins. -/
theorem command_mapInputs (body : Except Fault State) :
    command (s.mapInputs f) (body.map (·.mapInputs f)) =
      andThen (command s body) fun t => .next (t.mapInputs f) := by
  have hguard : command (s.mapInputs f) (body.map (·.mapInputs f)) =
      guarded s (body.map (·.mapInputs f)) := rfl
  rw [hguard, command]
  unfold guarded
  split_ifs
  · rfl
  · rfl
  · rfl
  · cases body <;> rfl

end

/-- The body of a command reads of the pins only the element operand (R46). -/
theorem execBody_mapInputs {s : State} {f : List CycleInput → List CycleInput}
    (h : pushOperand (s.mapInputs f) = pushOperand s) (i : Instr) :
    execBody i (s.mapInputs f) = (execBody i s).map (·.mapInputs f) := by
  have hpush : pushElement (s.mapInputs f) (pushOperand (s.mapInputs f)) =
      (pushElement s (pushOperand s)).map (·.mapInputs f) := by
    rw [h, pushElement_mapInputs]
  cases i with
  | nop => exact congrArg Except.ok (s.setRstat_mapInputs f _)
  | push => exact hpush
  | pop => exact popElement_mapInputs s f
  | clear => exact congrArg Except.ok ((s.setCount 0).setRstat_mapInputs f _)
  | peek i => exact peekElement_mapInputs s f _
  | qempty => exact congrArg Except.ok (queryValue_mapInputs s f _)
  | qfull => exact congrArg Except.ok (queryValue_mapInputs s f _)
  | qsize => exact congrArg Except.ok (queryValue_mapInputs s f _)
  | qcap => exact congrArg Except.ok (queryValue_mapInputs s f _)
  | lpush => exact hpush
  | lpop => exact popElement_mapInputs s f
  | pushref => exact hpush
  | illegal w => exact congrArg Except.ok (raise_mapInputs s f _)


/-- A command answers alike in two states that differ in pins it does not read. -/
theorem exec_mapInputs {s : State} {f : List CycleInput → List CycleInput}
    (h : pushOperand (s.mapInputs f) = pushOperand s) (i : Instr) :
    exec i (s.mapInputs f) = andThen (exec i s) fun t => .next (t.mapInputs f) := by
  rw [exec_eq_command, exec_eq_command, execBody_mapInputs h, command_mapInputs]

/-! ### Plain words in place of locked ones -/

theorem pins_unlock (s : State) : pins s.unlock = (pins s).unlock := by
  cases h : s.inputs <;> simp [pins, State.unlock, h]
  rfl

theorem CycleInput.unlock_cmd (c : CycleInput) (p : Port) :
    c.unlock.cmd p = unlockWord (c.cmd p) := by
  cases p <;> rfl

theorem CycleInput.unlock_wdata (c : CycleInput) (p : Port) : c.unlock.wdata p = c.wdata p := by
  cases p <;> rfl

theorem pushOperand_unlock (s : State) : pushOperand s.unlock = pushOperand s := by
  rw [pushOperand, pins_unlock, CycleInput.unlock_wdata]
  rfl

/-- `unlock` replaces the pins to come by ones with the same element operands. -/
theorem exec_unlock (i : Instr) (s : State) :
    exec i s.unlock = andThen (exec i s) fun t => .next t.unlock :=
  exec_mapInputs (pushOperand_unlock s) i

/-- The plain word has the effect of the locked one (R85, R86). -/
theorem exec_decode_unlockWord (w : Cmd) (s : State) :
    exec (decode (unlockWord w)) s = exec (decode w) s := by
  unfold unlockWord
  split
  case isTrue hw =>
    have hlocked : decode w = .lpush := hw ▸ by decide
    have hplain : decode 0x0001 = .push := by decide
    rw [hlocked, hplain]
    rfl
  · split
    case isTrue hw =>
      have hlocked : decode w = .lpop := hw ▸ by decide
      have hplain : decode 0x0002 = .pop := by decide
      rw [hlocked, hplain]
      rfl
    · rfl

theorem execPort_unlock (p : Port) (s : State) :
    execPort p s.unlock = andThen (execPort p s) fun t => .next t.unlock := by
  rw [execPort, pins_unlock, CycleInput.unlock_cmd, exec_decode_unlockWord]
  exact exec_unlock _ (s.serve p)

theorem andThen_next_left (s : State) (k : State → Host.Outcome State Fault Refusal) :
    andThen (.next s) k = k s := rfl

theorem andThen_assoc (o : Host.Outcome State Fault Refusal)
    (k l : State → Host.Outcome State Fault Refusal) :
    andThen (andThen o k) l = andThen o fun s => andThen (k s) l := by
  cases o <;> rfl

theorem endCycle_unlock (s : State) : s.unlock.endCycle = s.endCycle.unlock := by
  simp [State.unlock, State.endCycle]

theorem step_illegal_config {s : State} (hc : configLegal s.cfg = false) :
    step s = .refused .illegalConfiguration := by
  simp [step, clockEdge, hc]

/-- One edge with plain words in place of locked ones: reset does not look at the words, and either
port's command has the effect of the locked one. -/
theorem step_unlock (s : State) : step s.unlock = andThen (step s) fun t => .next t.unlock := by
  cases hc : configLegal s.cfg with
  | false =>
    rw [step_illegal_config hc, step_illegal_config (s := s.unlock) hc]
    rfl
  | true =>
    cases hr : (pins s).rst with
    | false =>
      have hr' : (pins s.unlock).rst = false := by rw [pins_unlock]; exact hr
      rw [step_rst_low hc hr, step_rst_low (s := s.unlock) hc hr', execPort_unlock]
      simp only [andThen_assoc, andThen_next_left, execPort_unlock, endCycle_unlock]
    | true =>
      have hr' : (pins s.unlock).rst = true := by rw [pins_unlock]; exact hr
      cases hb : broken s with
      | false =>
        rw [step_reset hc hb hr, step_reset (s := s.unlock) hc hb hr']
        exact congrArg _ (endCycle_unlock (resetState s))
      | true =>
        rw [step_broken hc hb, step_broken (s := s.unlock) hc hb]
        rfl

/-- A run with plain words in place of locked ones ends as the run itself, in the state with plain words
in the cycles still to come. -/
theorem run_unlock (n : Nat) (s : State) :
    run n s.unlock = andThen (run n s) fun t => .next t.unlock := by
  induction n generalizing s with
  | zero => rfl
  | succ n ih =>
    calc run (n + 1) s.unlock = andThen (step s) fun t => run n t.unlock := by
          rw [run_succ, step_unlock, andThen_assoc]; rfl
      _ = andThen (step s) fun t => andThen (run n t) fun u => .next u.unlock := by simp only [ih]
      _ = andThen (run (n + 1) s) fun t => .next t.unlock := by rw [run_succ, andThen_assoc]

/-- Settles O29: the run with plain words is the run itself but for the words still to come, whatever
its outcome. -/
theorem lockedAndPlainRunsAgree : Obligations.LockedAndPlainRunsAgree := by
  intro n s
  refine ⟨fun t h => ?_, fun r h => ?_, fun r h => ?_⟩ <;> rw [run_unlock, h] <;> rfl

end Sys2Proof.Machine
end

section
/-! PROOFS. The conditions, their causes and what a failed command leaves (spec/60_exceptions.md R89,
R90). -/

namespace Sys2Proof.Machine

/-- When command `i`, performed in `s`, meets a condition: the causes of R90's table (R91 to R94). -/
def Condition.Cause (i : Instr) (s : State) : Condition → Prop
  | .full => i.pushes = true ∧ s.count.toNat = s.cfg.N
  | .empty => i.pops = true ∧ s.count.toNat = 0
  | .outOfRange a => ∃ k, i = .peek k ∧ a = peekOperand k ∧ s.count.toNat ≤ k.toNat
  | .illegal w => i = .illegal w

/-- A statement about some condition, by R90's four rows. -/
theorem Condition.exists_iff {p : Condition → Prop} : (∃ c, p c) ↔
    p .full ∨ p .empty ∨ (∃ a, p (.outOfRange a)) ∨ ∃ w, p (.illegal w) := by
  constructor
  · rintro ⟨c, hc⟩
    cases c with
    | full => exact .inl hc
    | empty => exact .inr (.inl hc)
    | outOfRange a => exact .inr (.inr (.inl ⟨a, hc⟩))
    | illegal w => exact .inr (.inr (.inr ⟨w, hc⟩))
  · rintro (hc | hc | ⟨_, hc⟩ | ⟨_, hc⟩) <;> exact ⟨_, hc⟩

theorem Condition.two_le_code (c : Condition) : 2 ≤ c.code.toNat := by
  cases c <;> simp [Condition.code]

/-- A command that pushes has the body of PUSH. -/
theorem execBody_of_pushes {i : Instr} (hi : i.pushes = true) (s : State) :
    execBody i s = pushElement s (pushOperand s) := by
  cases i <;> cases hi <;> rfl

/-- A command that pops has the body of POP. -/
theorem execBody_of_pops {i : Instr} (hi : i.pops = true) (s : State) :
    execBody i s = popElement s := by
  cases i <;> cases hi <;> rfl

/-- A command that meets a condition raises it and does nothing else (R89). -/
theorem exec_of_cause {i : Instr} {s : State} {c : Condition} (hs : s.ready = true)
    (hc : c.Cause i s) : exec i s = .next (raise s c) := by
  cases c with
  | full =>
    obtain ⟨hi, hfull⟩ := hc
    exact exec_of_body hs
      ((execBody_of_pushes hi s).trans (pushElement_full (State.ready_iff.1 hs) hfull _))
  | empty =>
    obtain ⟨hi, hempty⟩ := hc
    exact exec_of_body hs ((execBody_of_pops hi s).trans (popElement_empty hempty))
  | outOfRange a =>
    obtain ⟨k, rfl, rfl, hk⟩ := hc
    exact exec_peek_range hs hk
  | illegal w =>
    obtain rfl : i = .illegal w := hc
    exact exec_illegal hs w

/-! ### The status of a command that meets no condition -/

theorem push_rstat_ok {i : Instr} {s t : State} (hi : i.pushes = true) (h : exec i s = .next t)
    (hroom : s.count.toNat ≠ s.cfg.N) : (t.regs s.active).rstat = statOk := by
  have hs := exec_next_ready h
  have hlt : s.count.toNat < s.cfg.N := Nat.lt_of_le_of_ne (State.ready_iff.1 hs).count_le hroom
  obtain ⟨u, -, hu, -, -, -, hregs, -⟩ := (pushContract_of_body (execBody_of_pushes hi) s hs).2 hlt
  cases h.symm.trans hu
  exact congrArg PortRegs.rstat hregs

theorem pop_rstat_ok {i : Instr} {s t : State} (hi : i.pops = true) (h : exec i s = .next t)
    (hsome : s.count.toNat ≠ 0) : (t.regs s.active).rstat = statOk := by
  have hs := exec_next_ready h
  obtain ⟨u, _, hu, -, -, hregs, -⟩ :=
    (popContract_of_body (execBody_of_pops hi) s hs).2 (Nat.pos_of_ne_zero hsome)
  cases h.symm.trans hu
  exact congrArg PortRegs.rstat hregs

theorem peek_rstat_ok {k : Idx} {s t : State} (h : exec (.peek k) s = .next t)
    (hk : k.toNat < s.count.toNat) : (t.regs s.active).rstat = statOk := by
  obtain ⟨-, v, -, -, -, hu⟩ := exec_peek_valid (exec_next_ready h) hk
  cases h.symm.trans hu
  rw [setRdata_ok_regs_active]

theorem query_rstat_ok {i : Instr} {s t : State} {v : Idx}
    (hi : execBody i s = .ok (queryValue s v)) (h : exec i s = .next t) :
    (t.regs s.active).rstat = statOk := by
  cases h.symm.trans (exec_of_body (exec_next_ready h) hi)
  rw [queryValue_regs_active]

theorem nop_rstat {s t : State} (h : exec .nop s = .next t) :
    (t.regs s.active).rstat = statNone := by
  cases h.symm.trans (exec_nop (exec_next_ready h))
  rw [State.setRstat_regs_active]

theorem clear_rstat_ok {s t : State} (h : exec .clear s = .next t) :
    (t.regs s.active).rstat = statOk := by
  cases h.symm.trans (exec_clear (exec_next_ready h))
  exact congrArg PortRegs.rstat (State.setRstat_regs_active (s.setCount 0) _)

/-- The status of a command that meets no condition: NONE for NOP, OK for every other (R22). -/
def statWithoutCondition (i : Instr) : Stat := if i = .nop then statNone else statOk

theorem statWithoutCondition_le_one (i : Instr) : (statWithoutCondition i).toNat ≤ 1 := by
  unfold statWithoutCondition
  split <;> decide

theorem statWithoutCondition_eq_none_iff (i : Instr) :
    statWithoutCondition i = statNone ↔ i = .nop := by
  simp [statWithoutCondition, statNone, statOk]

theorem rstat_of_no_cause {i : Instr} {s t : State} (h : exec i s = .next t)
    (hc : ∀ c : Condition, ¬ c.Cause i s) :
    (t.regs s.active).rstat = statWithoutCondition i := by
  cases i with
  | nop => exact nop_rstat h
  | push => exact push_rstat_ok rfl h fun hf => hc .full ⟨rfl, hf⟩
  | pop => exact pop_rstat_ok rfl h fun he => hc .empty ⟨rfl, he⟩
  | clear => exact clear_rstat_ok h
  | peek k =>
    exact peek_rstat_ok h (Nat.lt_of_not_le fun hk => hc (.outOfRange _) ⟨k, rfl, rfl, hk⟩)
  | qempty => exact query_rstat_ok rfl h
  | qfull => exact query_rstat_ok rfl h
  | qsize => exact query_rstat_ok rfl h
  | qcap => exact query_rstat_ok rfl h
  | lpush => exact push_rstat_ok rfl h fun hf => hc .full ⟨rfl, hf⟩
  | lpop => exact pop_rstat_ok rfl h fun he => hc .empty ⟨rfl, he⟩
  | pushref => exact push_rstat_ok rfl h fun hf => hc .full ⟨rfl, hf⟩
  | illegal w => exact absurd rfl (hc (.illegal w))

/-! ### The status as the record of the cause -/

/-- The inversion of a command by its status: it raised a condition it met, or met none. -/
theorem exec_next_cases {i : Instr} {s t : State} (h : exec i s = .next t) :
    (∃ c : Condition, c.Cause i s ∧ t = raise s c) ∨
      (t.regs s.active).rstat = statWithoutCondition i := by
  by_cases hc : ∃ c : Condition, c.Cause i s
  · obtain ⟨c, hc⟩ := hc
    cases h.symm.trans (exec_of_cause (exec_next_ready h) hc)
    exact .inl ⟨c, hc, rfl⟩
  · exact .inr (rstat_of_no_cause h (not_exists.1 hc))

theorem raise_rstat (s : State) (c : Condition) : ((raise s c).regs s.active).rstat = c.code := by
  rw [State.raise_regs_active]

/-- A status of 2 or more is that of a raised condition, which the command met. -/
theorem exec_next_failed {i : Instr} {s t : State} (h : exec i s = .next t)
    (hfail : 2 ≤ (t.regs s.active).rstat.toNat) :
    ∃ c : Condition, c.Cause i s ∧ t = raise s c := by
  refine (exec_next_cases h).resolve_right fun hok => ?_
  have hle := statWithoutCondition_le_one i
  rw [← hok] at hle
  omega

/-- A condition's code is in the status exactly when a condition of that code was met (R90). -/
theorem rstat_eq_code_iff {i : Instr} {s t : State} (h : exec i s = .next t) {v : Stat}
    (hv : 2 ≤ v.toNat) :
    (t.regs s.active).rstat = v ↔ ∃ c : Condition, c.code = v ∧ c.Cause i s := by
  constructor
  · rintro rfl
    obtain ⟨c, hc, rfl⟩ := exec_next_failed h hv
    exact ⟨c, (raise_rstat s c).symm, hc⟩
  · rintro ⟨c, rfl, hc⟩
    cases h.symm.trans (exec_of_cause (exec_next_ready h) hc)
    exact raise_rstat s c

/-- The status is NONE after NOP and after no other command (R22). -/
theorem rstat_eq_none_iff {i : Instr} {s t : State} (h : exec i s = .next t) :
    (t.regs s.active).rstat = statNone ↔ i = .nop := by
  constructor
  · intro hnone
    rcases exec_next_cases h with ⟨c, -, rfl⟩ | hok
    · have hcode := c.two_le_code
      rw [← raise_rstat s c, hnone] at hcode
      exact absurd hcode (by decide)
    · exact (statWithoutCondition_eq_none_iff i).1 (hok.symm.trans hnone)
  · rintro rfl
    exact nop_rstat h

theorem rstat_le_five {i : Instr} {s t : State} (h : exec i s = .next t) :
    (t.regs s.active).rstat.toNat ≤ 5 := by
  rcases exec_next_cases h with ⟨c, -, rfl⟩ | hok
  · exact raise_rstat s c ▸ c.code_le
  · exact hok ▸ (statWithoutCondition_le_one i).trans (by decide)

/-- Settles O31: each of the codes 2 to 5 is that of one row of R90, whose cause is the row's; 0 is
NOP's, and no answer is above 5. -/
theorem statusCodesHaveTheirCauses : Obligations.StatusCodesHaveTheirCauses := by
  intro i s t h
  refine ⟨rstat_eq_none_iff h, ?_, ?_, ?_, ?_, rstat_le_five h⟩
  all_goals
    rw [rstat_eq_code_iff h (by decide), Condition.exists_iff]
    simp [Condition.code, Condition.Cause]

/-- Settles O32: such a command raised a condition, which writes the status alone, and the state it
leaves is ready for the next command on either port. -/
theorem failedCommandsHaveNoOtherEffect : Obligations.FailedCommandsHaveNoOtherEffect := by
  intro i s t h hfail
  have hnext (p : Port) (j : Instr) : ∃ u, exec j (t.serve p) = .next u :=
    (exec_effect (exec_next_serve_ready h p) j).imp fun _ hu => hu.1
  obtain ⟨c, -, rfl⟩ := exec_next_failed h hfail
  rw [State.raise_regs_active]
  exact ⟨(raise_effect s c).sameOutside, raise_sameBuffer s c, rfl, rfl, hnext⟩

end Sys2Proof.Machine
end

section
/-! PROOFS. What a cycle's data pins can change (spec/70_reset_and_hazards.md R116): a step answers alike
for two cycles that differ only in the data of ports that do not push. -/

namespace Sys2Proof.Machine

/-- A command that does not push reads none of the pins to come. -/
theorem execBody_mapInputs_of_not_pushes {i : Instr} (hi : i.pushes = false) (s : State)
    (f : List CycleInput → List CycleInput) :
    execBody i (s.mapInputs f) = (execBody i s).map (·.mapInputs f) := by
  cases i with
  | push | lpush | pushref => cases hi
  | pop | lpop => exact popElement_mapInputs s f
  | peek => exact peekElement_mapInputs s f _
  | nop => exact congrArg Except.ok (s.setRstat_mapInputs f _)
  | clear => exact congrArg Except.ok ((s.setCount 0).setRstat_mapInputs f _)
  | qempty | qfull | qsize | qcap => exact congrArg Except.ok (queryValue_mapInputs s f _)
  | illegal => exact congrArg Except.ok (raise_mapInputs s f _)

/-- The state with the pins of the next cycle replaced. -/
def State.withPins (s : State) (c : CycleInput) : State := s.mapInputs fun cs => c :: cs.tail

@[simp] theorem pins_withPins (s : State) (c : CycleInput) : pins (s.withPins c) = c := rfl

/-- After its edge a cycle's pins are gone. -/
@[simp] theorem State.endCycle_withPins (s : State) (c : CycleInput) :
    (s.withPins c).endCycle = s.endCycle := rfl

/-- A push reads of the next cycle its own port's data, every other command nothing (R46). -/
theorem exec_withPins {i : Instr} {s : State} {c : CycleInput}
    (h : i.pushes = true → c.wdata s.active = (pins s).wdata s.active) :
    exec i (s.withPins c) = andThen (exec i s) fun t => .next (t.withPins c) := by
  cases hi : i.pushes with
  | true =>
    have hdata : pushOperand (s.withPins c) = pushOperand s := congrArg (lowW s.cfg) (h hi)
    exact exec_mapInputs hdata i
  | false =>
    rw [exec_eq_command, exec_eq_command, State.withPins, execBody_mapInputs_of_not_pushes hi]
    exact command_mapInputs s _ _

/-- The cycles `c` and `d` differ at most in data that R116 says have no effect: of a port that does not
push, or of any port in a reset cycle. -/
structure CycleInput.SameButUnreadData (c d : CycleInput) : Prop where
  rst : d.rst = c.rst
  cmd : ∀ p, d.cmd p = c.cmd p
  wdata : ∀ p, c.rst = false → (decode (c.cmd p)).pushes = true → d.wdata p = c.wdata p

theorem execPort_withPins {s : State} {c : CycleInput} (h : (pins s).SameButUnreadData c)
    (hr : (pins s).rst = false) (p : Port) :
    execPort p (s.withPins c) = andThen (execPort p s) fun t => .next (t.withPins c) := by
  rw [execPort, pins_withPins, h.cmd]
  exact exec_withPins (s := s.serve p) (h.wdata p hr)

/-- With `rst` low both ports' commands answer alike, F's from the state B has left. -/
theorem step_withPins_rst_low {s : State} {c : CycleInput} (hc : configLegal s.cfg = true)
    (h : (pins s).SameButUnreadData c) (hr : (pins s).rst = false) :
    step (s.withPins c) = step s := by
  rw [step_rst_low hc hr, step_rst_low (s := s.withPins c) hc (h.rst.trans hr),
    execPort_withPins h hr]
  cases hB : execPort .B s with
  | fault => rfl
  | refused => rfl
  | next s1 =>
    have hpins : pins s1 = pins s := (exec_next_effect hB).pins_eq
    rw [← hpins] at h hr
    simp only [andThen_next_left, execPort_withPins h hr, andThen_assoc, State.endCycle_withPins]

/-- With `rst` high the next cycle's words and data are not looked at. -/
theorem step_withPins_rst_high {s : State} {c : CycleInput} (hc : configLegal s.cfg = true)
    (hr : (pins s).rst = true) (hr' : c.rst = true) : step (s.withPins c) = step s := by
  cases hb : broken s with
  | true => rw [step_broken hc hb, step_broken (s := s.withPins c) hc hb]
  | false =>
    rw [step_reset hc hb hr, step_reset (s := s.withPins c) hc hb hr']
    exact congrArg _ (State.endCycle_withPins (resetState s) c)

/-- Data that no push reads change nothing in a step, whatever it answers (R116). -/
theorem step_withPins {s : State} {c : CycleInput} (h : (pins s).SameButUnreadData c) :
    step (s.withPins c) = step s := by
  cases hc : configLegal s.cfg with
  | false => rw [step_illegal_config hc, step_illegal_config (s := s.withPins c) hc]
  | true =>
    cases hr : (pins s).rst with
    | false => exact step_withPins_rst_low hc h hr
    | true => exact step_withPins_rst_high hc hr (h.rst.trans hr)

theorem sameButUnreadData_fWdata {c : CycleInput} (hF : (decode c.fCmd).pushes = false) (x : Elem) :
    c.SameButUnreadData { c with fWdata := x } where
  rst := rfl
  cmd p := by cases p <;> rfl
  wdata
    | .F, _, hpush => absurd hpush (Bool.eq_false_iff.1 hF)
    | .B, _, _ => rfl

theorem sameButUnreadData_bWdata {c : CycleInput} (hB : (decode c.bCmd).pushes = false) (y : Elem) :
    c.SameButUnreadData { c with bWdata := y } where
  rst := rfl
  cmd p := by cases p <;> rfl
  wdata
    | .F, _, _ => rfl
    | .B, _, hpush => absurd hpush (Bool.eq_false_iff.1 hB)

theorem sameButUnreadData_of_rst {c : CycleInput} (hr : c.rst = true) (x y : Elem) :
    c.SameButUnreadData { c with fWdata := x, bWdata := y } where
  rst := rfl
  cmd p := by cases p <;> rfl
  wdata _ hlow := absurd hr (Bool.eq_false_iff.1 hlow)

/-- Settles O36: in the first three clauses the two cycles differ only in data that no push reads; the
last is the contract of R81, which every push has. -/
theorem dataPinsMatterOnlyToPushes : Obligations.DataPinsMatterOnlyToPushes := by
  intro s c cs x y
  refine ⟨fun hF => step_withPins (s := { s with inputs := c :: cs }) (sameButUnreadData_fWdata hF x),
    fun hB => step_withPins (s := { s with inputs := c :: cs }) (sameButUnreadData_bWdata hB y),
    fun hr => step_withPins (s := { s with inputs := c :: cs }) (sameButUnreadData_of_rst hr x y),
    fun i hi hs hroom => ?_⟩
  obtain ⟨t, k, ht, -, -, -, -, hk, -, hslot, -⟩ :=
    (pushContract_of_body (execBody_of_pushes hi) { s with inputs := c :: cs } hs).2 hroom
  exact ⟨t, k, ht, hk, hslot⟩

end Sys2Proof.Machine
end

section
/-! PROOFS. Reset edges (spec/70_reset_and_hazards.md R105, R107): one edge, `rst` held for several, and
what the status outputs show after them (R106). -/

namespace Sys2Proof.Machine

/-- A reset edge is performed before the first one and in every ready state. -/
theorem step_reset_edge {s : State} (hc : configLegal s.cfg = true)
    (hs : s.wasReset = false ∨ s.ready = true) (hr : (pins s).rst = true) :
    step s = .next (resetState s).endCycle := by
  have hb : broken s = false :=
    hs.elim (fun h => broken_eq_false_iff.2 (.inl h)) fun h => (State.ready_iff.1 h).not_broken
  exact step_reset hc hb hr

/-- Settles O42: the state is `resetState`'s, at the end of the cycle. -/
theorem resetLoadsTheResetState : Obligations.ResetLoadsTheResetState := fun _ hc hs hr =>
  ⟨_, step_reset_edge hc hs hr, rfl, rfl, rfl, rfl, rfl, rfl, rfl, rfl⟩

/-- Of the cycles to come the next is the first, idle where the list has ended (log 4). -/
theorem pins_eq_getD_zero (s : State) : pins s = s.inputs.getD 0 idleInput := by
  unfold pins
  cases s.inputs <;> rfl

/-- Several reset edges leave what one leaves, with their cycles used up (R107). -/
theorem run_reset_held (n : Nat) {s : State} (hc : configLegal s.cfg = true)
    (hs : s.wasReset = false ∨ s.ready = true)
    (hr : ∀ k ≤ n, (s.inputs.getD k idleInput).rst = true) :
    run (n + 1) s = .next { resetState s with inputs := s.inputs.drop (n + 1), active := .B } := by
  induction n generalizing s with
  | zero =>
    have hfirst : (pins s).rst = true := pins_eq_getD_zero s ▸ hr 0 le_rfl
    rw [run_succ_of_next (step_reset_edge hc hs hfirst), run_zero, List.drop_one]
    rfl
  | succ n ih =>
    have hfirst : (pins s).rst = true := pins_eq_getD_zero s ▸ hr 0 (Nat.zero_le _)
    have hready : (resetState s).endCycle.ready = true :=
      State.ready_iff.2 (resetState_ready hc).endCycle
    have hrest : ∀ k ≤ n, (s.inputs.tail.getD k idleInput).rst = true := fun k hk => by
      simpa using hr (k + 1) (Nat.succ_le_succ hk)
    rw [run_succ_of_next (step_reset_edge hc hs hfirst),
      ih (s := (resetState s).endCycle) hc (.inr hready) hrest,
      State.endCycle_inputs, State.resetState_inputs, List.drop_tail]
    rfl

/-- R106's status outputs: no element, so both indices are the read cursor's 0. -/
theorem statusOutputs_resetState {s : State} (hc : configLegal s.cfg = true) :
    statusOutputs (resetState s) = .next
      { empty := true, full := false, count := 0, ridx := 0, widx := 0, cap := capIdx s.cfg } := by
  have h : (resetState s).Ready := resetState_ready hc
  obtain ⟨k, hk, ho⟩ := statusOutputs_ready h
  have hwidx : k = 0 := by
    obtain ⟨k', hk', hslot, -⟩ := writeIndex_ok h.legal h.ridx_lt h.count_le
    cases hk.symm.trans hk'
    apply BitVec.eq_of_toNat_eq
    rw [hslot]
    simp [slotOf]
  have hfull : fullFlag (resetState s) = false := by
    rw [← Bool.not_eq_true, fullFlag_iff h.cap_le]
    exact Nat.ne_of_lt h.cap_pos
  rw [ho, hwidx, hfull]
  rfl

/-- Settles O43: the edges leave the reset state, whose status outputs are R106's. -/
theorem resetHeldLoadsTheResetStateAgain : Obligations.ResetHeldLoadsTheResetStateAgain := by
  intro n s hc hs hr
  obtain ⟨-, hcap, -⟩ := configLegal_iff.1 hc
  exact ⟨_, run_reset_held n hc hs hr, rfl, rfl, rfl, rfl, rfl, rfl,
    _, (statusOutputs_pins (resetState s) _ .B).trans (statusOutputs_resetState hc),
    rfl, rfl, rfl, rfl, rfl, capIdx_toNat hcap⟩

end Sys2Proof.Machine
end

section
/-! PROOFS. The decoder and the encoder undo each other, and both follow the opcode table
(spec/30_encoding.md §3 to §5, spec/opcode_table.json). -/

namespace Sys2Proof

/-- Settles O3: PEEK's word carries its index, an illegal word is its own, and the word of every other
command is a constant. -/
theorem decodeEncodeGivesTheCommandBack : Obligations.DecodeEncodeGivesTheCommandBack := by
  intro i hi
  cases i with
  | peek k => exact decode_encode_peek k
  | illegal w => exact decode_not_legal (by simpa [Instr.wellFormed, encode] using hi)
  | nop | push | pop | clear | qempty | qfull | qsize | qcap | lpush | lpop | pushref => decide

theorem decode_wellFormed (w : Cmd) : (decode w).wellFormed = true := by
  cases hd : decode w with
  | illegal v =>
    have hv : v = w := by simpa [hd, encode] using encode_decode w
    have hillegal : ¬ legalWord v = true := (decode_eq_illegal_iff v).1 (hv ▸ hd)
    simpa [Instr.wellFormed] using hillegal
  | nop | push | pop | clear | peek | qempty | qfull | qsize | qcap | lpush | lpop | pushref => rfl

/-- Settles O4: the decoder keeps every bit of the word in the command it answers. -/
theorem encodeDecodeGivesTheWordBack : Obligations.EncodeDecodeGivesTheWordBack :=
  fun w => ⟨encode_decode w, decode_wellFormed w⟩

/-- No word decodes to the assembler's second name of PUSH (R52). -/
theorem decode_ne_pushref (w : Cmd) : decode w ≠ .pushref := by
  intro hd
  have hw : w = 0x0001 := by simpa [hd, encode] using (encode_decode w).symm
  rw [hw] at hd
  exact absurd hd (by decide)

/-- Settles O24: PUSHREF's word decodes to PUSH, and its body is the shared push. -/
theorem pushrefIsPush : Obligations.PushrefIsPush :=
  ⟨rfl, decode_ne_pushref, Machine.pushContract_of_body fun _ => rfl⟩

/-! ### The rows of the opcode table -/

/-- The commands whose row fixes all 16 bits of the word. -/
def wholeWordCommands : List Instr :=
  [.nop, .push, .pop, .clear, .qempty, .qfull, .qsize, .qcap, .lpush, .lpop]

/-- The row of a command with one word. -/
def wholeWordRow (i : Instr) : OpcodeRow :=
  { mnemonic := i.mnemonic, mask := 0xFFFF, pattern := encode i }

theorem mem_opcodeRows : ∀ r ∈ opcodeRows,
    r = { mnemonic := "PEEK", mask := 0x00FF, pattern := 0x0004 } ∨
      ∃ i ∈ wholeWordCommands, r = wholeWordRow i := by
  decide

theorem decode_encode_wholeWord : ∀ i ∈ wholeWordCommands, decode (encode i) = i := by decide

/-- Their mnemonics name no other command. -/
theorem eq_of_mnemonic_eq {j : Instr} :
    ∀ i ∈ wholeWordCommands, j.mnemonic = i.mnemonic → j = i := by
  cases j with
  | peek k =>
    have hname : ∀ i ∈ wholeWordCommands, "PEEK" ≠ i.mnemonic := by decide
    exact fun i hi h => absurd h (hname i hi)
  | illegal w =>
    have hname : ∀ i ∈ wholeWordCommands, "ILLEGAL" ≠ i.mnemonic := by decide
    exact fun i hi h => absurd h (hname i hi)
  | nop | push | pop | clear | qempty | qfull | qsize | qcap | lpush | lpop | pushref => decide

/-- A row that fixes all 16 bits matches the one word of its command, and so the words with its
mnemonic. -/
theorem wholeWordRow_iff {i : Instr} (hi : i ∈ wholeWordCommands) (w : Cmd) :
    w &&& 0xFFFF = encode i ↔ (decode w).mnemonic = i.mnemonic := by
  have hmask : w &&& 0xFFFF = w := BitVec.and_allOnes
  rw [hmask, ← decode_eq_iff (decode_encode_wholeWord i hi)]
  exact ⟨congrArg Instr.mnemonic, eq_of_mnemonic_eq i hi⟩

/-- PEEK's row leaves the upper byte free: it matches the words of PEEK with any index. -/
theorem peek_row_iff (w : Cmd) : w &&& 0x00FF = 0x0004 ↔ (decode w).mnemonic = "PEEK" := by
  constructor
  · intro h
    have hlow : w.toNat % 256 = 4 := by
      have := congrArg BitVec.toNat h
      rwa [BitVec.toNat_and, show (0x00FF : Cmd).toNat = 2 ^ 8 - 1 from rfl,
        Nat.and_two_pow_sub_one_eq_mod] at this
    have hw : w = encode (.peek (idxField w)) := by
      apply BitVec.eq_of_toNat_eq
      have := w.isLt
      rw [encode_peek, idxField, BitVec.toNat_ofNat, BitVec.extractLsb'_toNat,
        Nat.shiftRight_eq_div_pow]
      omega
    rw [hw, decode_encode_peek]
    rfl
  · intro h
    have peek_masked : ∀ k : Idx, encode (.peek k) &&& 0x00FF = 0x0004 := by decide
    cases hd : decode w with
    | peek k => rw [← encode_decode w, hd, peek_masked]
    | nop | push | pop | clear | qempty | qfull | qsize | qcap | lpush | lpop | pushref | illegal =>
      exact absurd (hd ▸ h) (by simp [Instr.mnemonic])

/-- A row of the table matches exactly the words that decode to its mnemonic. -/
theorem row_matches_iff {r : OpcodeRow} (hr : r ∈ opcodeRows) (w : Cmd) :
    w &&& r.mask = r.pattern ↔ (decode w).mnemonic = r.mnemonic := by
  rcases mem_opcodeRows r hr with rfl | ⟨i, hi, rfl⟩
  · exact peek_row_iff w
  · exact wholeWordRow_iff hi w

/-- The rows with a command's mnemonic. -/
def rowsNamed (i : Instr) : List OpcodeRow := opcodeRows.filter fun r => r.mnemonic == i.mnemonic

theorem rowsMatching_eq (w : Cmd) : rowsMatching w = rowsNamed (decode w) := by
  refine List.filter_congr fun r hr => ?_
  rw [Bool.eq_iff_iff, beq_iff_eq, beq_iff_eq, row_matches_iff hr, eq_comm]

/-- Settles O5: the matching rows are those with the mnemonic of the decoded command, one for a command
of the table and none for ILLEGAL. -/
theorem decoderFollowsTheOpcodeTable : Obligations.DecoderFollowsTheOpcodeTable := by
  intro w
  rw [rowsMatching_eq]
  refine ⟨?_, fun r hr => ?_, ?_⟩
  · cases decode w <;> simp [rowsNamed, opcodeRows, Instr.mnemonic]
  · exact (beq_iff_eq.1 (List.mem_filter.1 hr).2).symm
  · cases hd : decode w with
    | illegal v =>
      have hv : v = w := by simpa [hd, encode] using encode_decode w
      exact iff_of_true (congrArg _ hv) rfl
    | pushref => exact absurd hd (decode_ne_pushref w)
    | nop | push | pop | clear | peek | qempty | qfull | qsize | qcap | lpush | lpop =>
      exact iff_of_false nofun nofun

/-! ### Words of the opcode map, and the assembler -/

/-- Settles O2: the decoder evaluated on the listed words. -/
theorem decodesWordsOfTheOpcodeMap : Obligations.DecodesWordsOfTheOpcodeMap := by
  unfold Obligations.DecodesWordsOfTheOpcodeMap
  decide

/-- Settles O6: each pin is read off the line's command for its port, and a port not written has NOP's
word. -/
theorem assemblerPresentsTheLine : Obligations.AssemblerPresentsTheLine := by
  intro t c d fd bd w i k v
  have hnop : decode 0x0000 = .nop := by decide
  exact ⟨hnop, hnop, rfl, rfl, rfl, rfl, rfl, rfl, rfl, rfl, rfl, rfl⟩

end Sys2Proof
end

section
/-! PROOFS. The indices in the source's modulo form, the flags against each other, and all outputs of the
interface (spec/40_index_arithmetic.md §2 to §5, spec/41_command_cycle.md §1). -/

namespace Sys2Proof.Machine

/-- Settles O8: `wrap` answers the residue, and both 0 and N leave that of the cursor. -/
theorem writeIndexIsRidxPlusCountModN : Obligations.WriteIndexIsRidxPlusCountModN := by
  intro s hs
  have h := State.ready_iff.1 hs
  obtain ⟨k, hk, hslot, -⟩ := writeIndex_ok h.legal h.ridx_lt h.count_le
  refine ⟨k, hk, hslot, fun hends => BitVec.eq_of_toNat_eq (hslot.trans ?_)⟩
  rcases hends with hempty | hfull
  · rw [hempty, slotOf_zero h.ridx_lt]
  · rw [hfull, slotOf, Nat.add_mod_right, Nat.mod_eq_of_lt h.ridx_lt]

/-- Settles O9: `wrap` answers the residue, which for position 0 is the cursor itself. -/
theorem physicalIndexIsRidxPlusPositionModN : Obligations.PhysicalIndexIsRidxPlusPositionModN := by
  intro s i hs hi
  have h := State.ready_iff.1 hs
  have hcap : (zext9 i).toNat < s.cfg.N := by
    rw [zext9_toNat]
    exact lt_of_lt_of_le hi h.count_le
  obtain ⟨k, hk, hslot, -⟩ := physIndex_ok h.legal h.ridx_lt hcap
  rw [zext9_toNat] at hslot
  refine ⟨k, hk, hslot, ?_⟩
  rintro rfl
  exact BitVec.eq_of_toNat_eq (hslot.trans (slotOf_zero h.ridx_lt))

/-- Settles O15: the write index is `ridx + count`, less N when that reaches N. -/
theorem pointerPairDeterminesCountModN : Obligations.PointerPairDeterminesCountModN := by
  intro s k hs hk
  have h := State.ready_iff.1 hs
  obtain ⟨k', hk', hslot, -⟩ := writeIndex_ok h.legal h.ridx_lt h.count_le
  cases hk.symm.trans hk'
  rw [hslot, slotOf]
  have hridx := h.ridx_lt
  have hcount := h.count_le
  rcases Nat.lt_or_ge (s.ridx.toNat + s.count.toNat) s.cfg.N with hlt | hge
  · rw [Nat.mod_eq_of_lt hlt, Nat.add_assoc, Nat.add_sub_cancel_left, Nat.add_mod_right]
  · rw [mod_eq_sub_of_lt_two_mul hge (by omega), Nat.sub_add_cancel hge, Nat.add_sub_cancel_left]

/-- Settles O12: the flags say that the counter is 0 and that it is N, and N is at least 1. -/
theorem flagsExcludeEachOther : Obligations.FlagsExcludeEachOther := by
  intro s hc
  obtain ⟨hpos, hcap, -⟩ := configLegal_iff.1 hc
  simp only [← Bool.not_eq_true, emptyFlag_iff, fullFlag_iff hcap]
  omega

/-- Settles O14: in a ready state the outputs are those `outputs_ready` lists. -/
theorem outputsShowTheResponseRegisters : Obligations.OutputsShowTheResponseRegisters := by
  intro s hs
  obtain ⟨st, hst, ho⟩ := outputs_ready (State.ready_iff.1 hs)
  exact ⟨_, ho, rfl, rfl, hst⟩

/-! ### The slot accesses -/

/-- Settles O49: an access checks the slot number first; a read then looks for a value, which a write
has put there. -/
theorem slotAccessesFaultOutsideTheStoredSlots :
    Obligations.SlotAccessesFaultOutsideTheStoredSlots := by
  intro s k v
  refine ⟨fun hout => ⟨if_pos hout, if_pos hout⟩, fun hin hnone => ?_, fun hin =>
    ⟨_, memWrite_ok hin v, memRead_ok (s := s.storeSlot k.toNat v) hin
      (Memory.read_write_same s.slots k.toNat v)⟩⟩
  rw [memRead, if_neg (Nat.not_le.2 hin), hnone]

end Sys2Proof.Machine
end

section
/-! PROOFS. Where the model stops: an illegal configuration (spec/00_scope.md §4), the time before the
first reset edge (spec/70_reset_and_hazards.md §1), and broken states (spec/10_state.md §2). -/

namespace Sys2Proof.Machine

/-- Settles O47: the configuration is the first check of the guard and of the edge. -/
theorem illegalConfigurationsAreRefused : Obligations.IllegalConfigurationsAreRefused := by
  intro s hillegal
  have hc : configLegal s.cfg = false := by
    rw [← Bool.not_eq_true, configLegal_iff]
    omega
  exact ⟨fun i => by rw [exec_eq_command, command_illegal_config hc], step_illegal_config hc,
    guarded_illegal_config hc _, guarded_illegal_config hc _⟩

theorem exec_before_reset {s : State} (hc : configLegal s.cfg = true) (hw : s.wasReset = false)
    (i : Instr) : exec i s = .refused .beforeFirstReset := by
  rw [exec_eq_command, command_before_reset hc hw]

/-- Settles O46: the guard refuses, and an edge with `rst` low is refused by B's command. -/
theorem commandsBeforeResetAreRefused : Obligations.CommandsBeforeResetAreRefused := by
  intro s hc hw
  refine ⟨exec_before_reset hc hw, fun hr => ?_, guarded_before_reset hc hw _,
    guarded_before_reset hc hw _⟩
  have hB : execPort .B s = .refused .beforeFirstReset := exec_before_reset (s := s.serve .B) hc hw _
  rw [step_rst_low hc hr, hB]
  rfl

/-- Settles O48: each disjunct contradicts one conjunct of `coherent`. -/
theorem brokenStatesFault : Obligations.BrokenStatesFault := by
  intro s hc hw hbad
  have hcoherent : coherent s = false := by
    rw [← Bool.not_eq_true, coherent_iff]
    rintro ⟨hcount, hridx, hvalid, hf, hb⟩
    rcases hbad with h | h | ⟨k, hk, hnone⟩ | ⟨k, hk, hnot⟩ | h | h
    · exact absurd hcount (Nat.not_le.2 h)
    · exact absurd hridx (Nat.not_lt.2 h)
    · obtain ⟨⟨v, hv⟩, -⟩ := hvalid k hk
      exact Option.some_ne_none v (hv.symm.trans hnone)
    · exact hnot (hvalid k hk).2
    · exact absurd hf (Nat.not_le.2 h)
    · exact absurd hb (Nat.not_le.2 h)
  have hbroken : broken s = true := by simp [broken, hw, hcoherent]
  exact ⟨exec_broken hc hbroken, step_broken hc hbroken, guarded_broken hc hw hcoherent _,
    guarded_broken hc hw hcoherent _⟩

end Sys2Proof.Machine
end

section
/-! PROOFS. What every step keeps (spec/10_state.md §2, §5; spec/41_command_cycle.md §2, §5;
spec/70_reset_and_hazards.md §1, §2): the invariant, and that the block never stops. -/

namespace Sys2Proof.Machine

theorem State.inv_iff {s : State} : s.inv = true ↔ s.ready = true ∧ s.shaped = true := by
  simp [State.inv]

/-! ### Reset edges -/

/-- A reset edge needs of the state before it only the slots (R105). -/
theorem resetState_shaped {s : State} (hwf : Memory.wf s.slots = true)
    (hfits : Memory.fits s.cfg s.slots = true) : (resetState s).shaped = true := by
  simp [State.shaped, hwf, hfits, SlotSet.wf, SlotSet.fits, PortRegs.reset]

theorem resetState_inv {s : State} (hc : configLegal s.cfg = true) (hwf : Memory.wf s.slots = true)
    (hfits : Memory.fits s.cfg s.slots = true) : (resetState s).inv = true :=
  State.inv_iff.2 ⟨State.ready_iff.2 (resetState_ready hc), resetState_shaped hwf hfits⟩

/-- The invariant reads neither the pins to come nor the port served. -/
theorem State.inv_endCycle (s : State) : s.endCycle.inv = s.inv := rfl

/-- With `rst` high a step that answers has loaded the reset state (R95). -/
theorem step_next_of_rst {s t : State} (hr : (pins s).rst = true) (h : step s = .next t) :
    t = (resetState s).endCycle := by
  obtain ⟨-, -, ⟨-, ht⟩ | ⟨hlow, -⟩⟩ := step_next_cases h
  · exact ht
  · exact absurd hr (Bool.eq_false_iff.1 hlow)

/-- Settles O45: the reset state has the invariant when the slots it keeps are well shaped. -/
theorem resetEstablishesTheInvariant : Obligations.ResetEstablishesTheInvariant := by
  intro s t hc hwf hfits hr h
  rw [step_next_of_rst hr h, State.inv_endCycle]
  exact resetState_inv hc hwf hfits

theorem resetWith_inv {c : Config} (hc : configLegal c = true) : (State.resetWith c).inv = true :=
  resetState_inv (s := State.resetWith c) hc (resetWith_slots_wf c) rfl

/-- Settles O44: the state after reset is the reset state of itself, and its registers are R106's. -/
theorem resetStateHasItsValuesAndTheInvariant :
    Obligations.ResetStateHasItsValuesAndTheInvariant :=
  ⟨fun _ hc => ⟨resetWith_inv hc, fun r => by cases r <;> rfl⟩, resetWith_inv (by decide)⟩

/-! ### Steps -/

theorem exec_keeps_inv {i : Instr} {s t : State} (hs : s.inv = true) (h : exec i s = .next t) :
    t.inv = true := by
  obtain ⟨hready, hshaped⟩ := State.inv_iff.1 hs
  have he := exec_next_effect h
  exact State.inv_iff.2
    ⟨State.ready_iff.2 (he.ready (State.ready_iff.1 hready)), he.shaped hshaped⟩

theorem step_keeps_inv {s t : State} (hs : s.inv = true) (h : step s = .next t) : t.inv = true := by
  obtain ⟨hc, -, ⟨-, rfl⟩ | ⟨-, s1, s2, h1, h2, rfl⟩⟩ := step_next_cases h
  · obtain ⟨-, hshaped⟩ := State.inv_iff.1 hs
    simp only [State.shaped, Bool.and_eq_true, and_assoc] at hshaped
    obtain ⟨hwf, hfits, -⟩ := hshaped
    exact resetState_inv hc hwf hfits
  · have hinv1 : s1.inv = true := exec_keeps_inv (s := s.serve .B) hs h1
    rw [State.inv_endCycle]
    exact exec_keeps_inv (s := s1.serve .F) hinv1 h2

/-- Settles O50: a step is a reset edge or two commands, and each keeps the invariant. -/
theorem stepKeepsTheInvariant : Obligations.StepKeepsTheInvariant := fun _ _ => step_keeps_inv

/-- In a state with the invariant every register is within R25's width: by its type, or for the data
registers by the shape. -/
theorem readReg_lt_of_inv {s : State} (hs : s.inv = true) (r : Reg) :
    s.readReg r < 2 ^ r.width s.cfg := by
  obtain ⟨-, hshaped⟩ := State.inv_iff.1 hs
  simp only [State.shaped, Bool.and_eq_true, decide_eq_true_eq] at hshaped
  obtain ⟨⟨-, hf⟩, hb⟩ := hshaped
  cases r with
  | ridx => exact s.ridx.isLt
  | count => exact s.count.isLt
  | fRstat => exact s.f.rstat.isLt
  | fRval => exact s.f.rval.isLt
  | fRdata => exact hf
  | bRstat => exact s.b.rstat.isLt
  | bRval => exact s.b.rval.isLt
  | bRdata => exact hb

/-- Settles O51: the invariant, kept by the step, bounds every register. -/
theorem registersStayWithinTheirWidths : Obligations.RegistersStayWithinTheirWidths :=
  fun _ _ r hs h => readReg_lt_of_inv (step_keeps_inv hs h) r

/-! ### The block never stops -/

/-- A ready state answers every edge with a ready state, and one cycle of pins is used up. -/
theorem step_answers_ready {s : State} (hs : s.ready = true) :
    ∃ t, step s = .next t ∧ t.ready = true ∧ t.cfg = s.cfg ∧ t.inputs = s.inputs.tail := by
  have h := State.ready_iff.1 hs
  cases hr : (pins s).rst with
  | true =>
    exact ⟨_, step_reset h.legal h.not_broken hr,
      State.ready_iff.2 (resetState_ready h.legal).endCycle, rfl, rfl⟩
  | false =>
    obtain ⟨s1, s2, -, e1, -, e2, hstep, -, h2⟩ := step_ready h hr
    exact ⟨_, hstep, State.ready_iff.2 h2.endCycle, e2.cfg_eq.trans e1.cfg_eq,
      congrArg List.tail (e2.inputs_eq.trans e1.inputs_eq)⟩

/-- Settles O52: by induction on the number of edges, each of which answers a ready state. -/
theorem blockNeverStops : Obligations.BlockNeverStops := by
  intro n
  induction n with
  | zero => exact fun s hs => ⟨s, rfl, hs, rfl, rfl⟩
  | succ n ih =>
    intro s hs
    obtain ⟨u, hu, hready, hcfg, hinputs⟩ := step_answers_ready hs
    obtain ⟨t, ht, htready, htcfg, htinputs⟩ := ih u hready
    refine ⟨t, (run_succ_of_next hu).trans ht, htready, htcfg.trans hcfg, ?_⟩
    rw [htinputs, hinputs, List.drop_tail]

/-- Settles O38: the placed cycle has `rst` low, NOP on port B and the word on port F. -/
theorem placedWordIsTheNextCommandOfPortF : Obligations.PlacedWordIsTheNextCommandOfPortF := by
  intro s n w hs
  have hplaced : (s.withFetchWord n w).ready = true := hs
  have hnop : decode (pins (s.withFetchWord n w)).bCmd = .nop := by
    rw [show (pins (s.withFetchWord n w)).bCmd = 0x0000 from rfl]
    decide
  obtain ⟨s1, s2, h1, h2⟩ := both_commands_next hplaced .nop (decode (BitVec.ofNat 16 w))
  have hstep : step (s.withFetchWord n w) = .next s2.endCycle :=
    step_of_both_next (State.ready_iff.1 hplaced).legal rfl (hnop ▸ h1) h2
  exact ⟨s1, s2, h1, h2, hstep, congrArg State.inputs (endCycle_after_both h1 h2)⟩

end Sys2Proof.Machine
end

section
/-! PROOFS. What a command can answer, each answer with the commands and the condition it belongs to; from
it the writers of each register (spec/10_state.md §2, §5, §7) and the commands that are idempotent
(spec/20_memory.md §2). -/

namespace Sys2Proof.Machine

/-! ### The states the commands leave -/

/-- After a push that stored its element in slot `k` (R81). -/
def State.afterPush (s : State) (k : Idx) : State :=
  ((s.storeSlot k.toNat (pushOperand s)).setCount (s.count + 1)).setRstat statOk

/-- After a pop that returned `v` and moved the cursor to `k` (R83). -/
def State.afterPop (s : State) (v : Elem) (k : Idx) : State :=
  (((s.setRdata v).setRidx k).setCount (s.count - 1)).setRstat statOk

/-- After a PEEK that returned `v` (R84). -/
def State.afterPeek (s : State) (v : Elem) : State := (s.setRdata v).setRstat statOk

/-- After CLEAR (R80). -/
def State.afterClear (s : State) : State := (s.setCount 0).setRstat statOk

@[simp] theorem State.afterPush_cfg (s : State) (k : Idx) :
    (s.afterPush k).cfg = s.cfg := by simp [State.afterPush]
@[simp] theorem State.afterPush_ridx (s : State) (k : Idx) :
    (s.afterPush k).ridx = s.ridx := by simp [State.afterPush]
@[simp] theorem State.afterPush_count (s : State) (k : Idx) :
    (s.afterPush k).count = s.count + 1 := by simp [State.afterPush]
@[simp] theorem State.afterPush_slots (s : State) (k : Idx) :
    (s.afterPush k).slots = Memory.write s.slots k.toNat (pushOperand s) := by simp [State.afterPush]
@[simp] theorem State.afterPush_written (s : State) (k : Idx) :
    (s.afterPush k).written = SlotSet.insert s.written k.toNat := by simp [State.afterPush]

@[simp] theorem State.afterPop_cfg (s : State) (v : Elem) (k : Idx) :
    (s.afterPop v k).cfg = s.cfg := by simp [State.afterPop]
@[simp] theorem State.afterPop_ridx (s : State) (v : Elem) (k : Idx) :
    (s.afterPop v k).ridx = k := by simp [State.afterPop]
@[simp] theorem State.afterPop_count (s : State) (v : Elem) (k : Idx) :
    (s.afterPop v k).count = s.count - 1 := by simp [State.afterPop]
@[simp] theorem State.afterPop_slots (s : State) (v : Elem) (k : Idx) :
    (s.afterPop v k).slots = s.slots := by simp [State.afterPop]
@[simp] theorem State.afterPop_written (s : State) (v : Elem) (k : Idx) :
    (s.afterPop v k).written = s.written := by simp [State.afterPop]

@[simp] theorem State.afterPeek_cfg (s : State) (v : Elem) :
    (s.afterPeek v).cfg = s.cfg := by simp [State.afterPeek]
@[simp] theorem State.afterPeek_ridx (s : State) (v : Elem) :
    (s.afterPeek v).ridx = s.ridx := by simp [State.afterPeek]
@[simp] theorem State.afterPeek_count (s : State) (v : Elem) :
    (s.afterPeek v).count = s.count := by simp [State.afterPeek]
@[simp] theorem State.afterPeek_slots (s : State) (v : Elem) :
    (s.afterPeek v).slots = s.slots := by simp [State.afterPeek]
@[simp] theorem State.afterPeek_written (s : State) (v : Elem) :
    (s.afterPeek v).written = s.written := by simp [State.afterPeek]

@[simp] theorem State.afterClear_cfg (s : State) :
    (s.afterClear).cfg = s.cfg := by simp [State.afterClear]
@[simp] theorem State.afterClear_ridx (s : State) :
    (s.afterClear).ridx = s.ridx := by simp [State.afterClear]
@[simp] theorem State.afterClear_count (s : State) :
    (s.afterClear).count = 0 := by simp [State.afterClear]
@[simp] theorem State.afterClear_slots (s : State) :
    (s.afterClear).slots = s.slots := by simp [State.afterClear]
@[simp] theorem State.afterClear_written (s : State) :
    (s.afterClear).written = s.written := by simp [State.afterClear]

@[simp] theorem queryValue_cfg (s : State) (v : Idx) :
    (queryValue s v).cfg = s.cfg := by simp [queryValue]
@[simp] theorem queryValue_ridx (s : State) (v : Idx) :
    (queryValue s v).ridx = s.ridx := by simp [queryValue]
@[simp] theorem queryValue_count (s : State) (v : Idx) :
    (queryValue s v).count = s.count := by simp [queryValue]
@[simp] theorem queryValue_slots (s : State) (v : Idx) :
    (queryValue s v).slots = s.slots := by simp [queryValue]
@[simp] theorem queryValue_written (s : State) (v : Idx) :
    (queryValue s v).written = s.written := by simp [queryValue]

@[simp] theorem State.afterPush_regs_active (s : State) (k : Idx) :
    (s.afterPush k).regs s.active = { s.regs s.active with rstat := statOk } :=
  State.setRstat_regs_active ..

@[simp] theorem State.afterPop_regs_active (s : State) (v : Elem) (k : Idx) :
    (s.afterPop v k).regs s.active = { s.regs s.active with rdata := v, rstat := statOk } := by
  simp [State.afterPop, State.setRstat, State.setRdata]

@[simp] theorem State.afterPeek_regs_active (s : State) (v : Elem) :
    (s.afterPeek v).regs s.active = { s.regs s.active with rdata := v, rstat := statOk } :=
  setRdata_ok_regs_active s v

@[simp] theorem State.afterClear_regs_active (s : State) :
    s.afterClear.regs s.active = { s.regs s.active with rstat := statOk } :=
  State.setRstat_regs_active ..

/-- The value a query answers (R76 to R79). -/
def queryAnswer (i : Instr) (s : State) : Idx :=
  match i with
  | .qempty => flagValue (emptyFlag s)
  | .qfull => flagValue (fullFlag s)
  | .qsize => s.count
  | .qcap => capIdx s.cfg
  | _ => 0

theorem execBody_of_queries {i : Instr} (hi : i.queries = true) (s : State) :
    execBody i s = .ok (queryValue s (queryAnswer i s)) := by
  cases i <;> cases hi <;> rfl

/-- A query looks at the counter and the configuration only. -/
theorem queryAnswer_congr (i : Instr) {s t : State} (hcount : t.count = s.count)
    (hcfg : t.cfg = s.cfg) : queryAnswer i t = queryAnswer i s := by
  cases i <;> simp [queryAnswer, emptyFlag, fullFlag, hcount, hcfg]

/-! ### The answers -/

/-- What command `i`, performed in `s`, can answer. -/
inductive Answer (i : Instr) (s : State) : State → Prop where
  /-- A condition was met and raised. -/
  | raised (c : Condition) (hc : c.Cause i s) : Answer i s (raise s c)
  /-- NOP. -/
  | nothing (hi : i = .nop) : Answer i s (s.setRstat statNone)
  /-- CLEAR. -/
  | cleared (hi : i = .clear) : Answer i s s.afterClear
  /-- A query. -/
  | queried (hi : i.queries = true) : Answer i s (queryValue s (queryAnswer i s))
  /-- A PEEK of a valid position. -/
  | peeked (n : Idx) (v : Elem) (hi : i = .peek n) (hn : n.toNat < s.count.toNat)
      (hv : Memory.read s.slots (slotOf s n.toNat) = some v) : Answer i s (s.afterPeek v)
  /-- A push that found room. -/
  | pushed (k : Idx) (hi : i.pushes = true) (hroom : s.count.toNat < s.cfg.N)
      (hk : k.toNat = slotOf s s.count.toNat) : Answer i s (s.afterPush k)
  /-- A pop that found an element. -/
  | popped (v : Elem) (k : Idx) (hi : i.pops = true) (hsome : 0 < s.count.toNat)
      (hv : Memory.read s.slots s.ridx.toNat = some v)
      (hk : k.toNat = (s.ridx.toNat + 1) % s.cfg.N) : Answer i s (s.afterPop v k)

theorem exec_push_room {i : Instr} {s : State} (hs : s.ready = true) (hi : i.pushes = true)
    (hroom : s.count.toNat < s.cfg.N) :
    ∃ k, writeIndex s = .ok k ∧ k.toNat = slotOf s s.count.toNat ∧
      exec i s = .next (s.afterPush k) := by
  obtain ⟨k, hk, hslot, -, hpush⟩ :=
    pushElement_room (State.ready_iff.1 hs) (Nat.ne_of_lt hroom) (pushOperand s)
  exact ⟨k, hk, hslot, exec_of_body hs ((execBody_of_pushes hi s).trans hpush)⟩

theorem exec_pushes_answer {i : Instr} {s : State} (hs : s.ready = true) (hi : i.pushes = true) :
    ∃ t, exec i s = .next t ∧ Answer i s t := by
  rcases Nat.eq_or_lt_of_le (State.ready_iff.1 hs).count_le with hfull | hroom
  · exact ⟨_, exec_of_cause (c := .full) hs ⟨hi, hfull⟩, .raised .full ⟨hi, hfull⟩⟩
  · obtain ⟨k, -, hslot, he⟩ := exec_push_room hs hi hroom
    exact ⟨_, he, .pushed k hi hroom hslot⟩

theorem exec_pops_answer {i : Instr} {s : State} (hs : s.ready = true) (hi : i.pops = true) :
    ∃ t, exec i s = .next t ∧ Answer i s t := by
  rcases Nat.eq_zero_or_pos s.count.toNat with hempty | hsome
  · exact ⟨_, exec_of_cause (c := .empty) hs ⟨hi, hempty⟩, .raised .empty ⟨hi, hempty⟩⟩
  · obtain ⟨v, k, hv, -, hk, -, hpop⟩ :=
      popElement_some (State.ready_iff.1 hs) (Nat.ne_of_gt hsome)
    exact ⟨_, exec_of_body hs ((execBody_of_pops hi s).trans hpop), .popped v k hi hsome hv hk⟩

theorem exec_peek_answer {s : State} (hs : s.ready = true) (n : Idx) :
    ∃ t, exec (.peek n) s = .next t ∧ Answer (.peek n) s t := by
  rcases Nat.lt_or_ge n.toNat s.count.toNat with hn | hn
  · obtain ⟨k, v, -, hslot, hv, he⟩ := exec_peek_valid hs hn
    exact ⟨_, he, .peeked n v rfl hn (hslot ▸ hv)⟩
  · exact ⟨_, exec_peek_range hs hn, .raised _ ⟨n, rfl, rfl, hn⟩⟩

theorem exec_queries_answer {i : Instr} {s : State} (hs : s.ready = true) (hi : i.queries = true) :
    ∃ t, exec i s = .next t ∧ Answer i s t :=
  ⟨_, exec_of_body hs (execBody_of_queries hi s), .queried hi⟩

/-- In a ready state every command answers, and with one of the answers. -/
theorem exec_answer {s : State} (hs : s.ready = true) (i : Instr) :
    ∃ t, exec i s = .next t ∧ Answer i s t := by
  cases i with
  | nop => exact ⟨_, exec_nop hs, .nothing rfl⟩
  | push | lpush | pushref => exact exec_pushes_answer hs rfl
  | pop | lpop => exact exec_pops_answer hs rfl
  | clear => exact ⟨_, exec_clear hs, .cleared rfl⟩
  | peek n => exact exec_peek_answer hs n
  | qempty | qfull | qsize | qcap => exact exec_queries_answer hs rfl
  | illegal w => exact ⟨_, exec_illegal hs w, .raised (.illegal w) rfl⟩

/-- The inversion of a command that answers a next state. -/
theorem exec_next_answer {i : Instr} {s t : State} (h : exec i s = .next t) : Answer i s t := by
  obtain ⟨u, hu, ha⟩ := exec_answer (exec_next_ready h) i
  cases h.symm.trans hu
  exact ha

/-! ### The writers -/

/-- Settles O33: each answer writes what its commands are listed for. -/
theorem eachRegisterHasItsWriters : Obligations.EachRegisterHasItsWriters := by
  have reads_of_pops {i : Instr} (hi : i.pops = true) : i.reads = true := by
    cases i <;> cases hi <;> rfl
  intro i s t h
  cases exec_next_answer h with
  | raised c => simp
  | nothing => simp
  | cleared hi => simp [hi]
  | queried hi => simp [hi, queryValue_regs_active]
  | peeked n v hi => simp [hi, Instr.reads, statOk]
  | pushed k hi => simp [hi]
  | popped v k hi => simp [hi, reads_of_pops hi, statOk]

/-- Settles O34: of the answers only that of a push with room touches the record, and a reset edge loads
the reset state, whose record is empty. -/
theorem writtenRecordsThePushesSinceReset : Obligations.WrittenRecordsThePushesSinceReset := by
  intro s t
  refine ⟨fun i h hi hroom => ?_, fun i h hno => ?_, fun hr h => ?_⟩
  · obtain ⟨k, hk, -, he⟩ := exec_push_room (exec_next_ready h) hi hroom
    cases h.symm.trans he
    exact ⟨k, hk, fun a => by simp⟩
  · cases exec_next_answer h with
    | raised | nothing | cleared | queried | peeked | popped => simp
    | pushed k hi hroom =>
      rcases hno with hno | hfull
      · exact absurd hi (Bool.eq_false_iff.1 hno)
      · exact absurd hfull (Nat.ne_of_lt hroom)
  · rw [step_next_of_rst hr h]
    rfl

/-! ### Idempotency -/

/-- The slot of a position depends on the cursor and the capacity only. -/
theorem slotOf_congr {s t : State} (hcfg : t.cfg = s.cfg) (hridx : t.ridx = s.ridx) (n : Nat) :
    slotOf t n = slotOf s n := by
  rw [slotOf, slotOf, hcfg, hridx]

theorem State.setCount_self {s : State} {v : Idx} (h : s.count = v) : s.setCount v = s := by
  subst h
  rfl

/-- A write of what a register holds is no change. -/
theorem State.setRegs_self (s : State) (p : Port) : s.setRegs p (s.regs p) = s := by
  cases p <;> rfl

theorem State.setRstat_self {s : State} {v : Stat} (h : (s.regs s.active).rstat = v) :
    s.setRstat v = s := by
  subst h
  exact s.setRegs_self s.active

theorem State.setRval_self {s : State} {v : Idx} (h : (s.regs s.active).rval = v) :
    s.setRval v = s := by
  subst h
  exact s.setRegs_self s.active

theorem State.setRdata_self {s : State} {v : Elem} (h : (s.regs s.active).rdata = v) :
    s.setRdata v = s := by
  subst h
  exact s.setRegs_self s.active

/-- Whether a condition is met depends on the counter and the configuration only (R90). -/
theorem Condition.Cause.congr {c : Condition} {i : Instr} {s t : State} (hc : c.Cause i s)
    (hcount : t.count = s.count) (hcfg : t.cfg = s.cfg) : c.Cause i t := by
  cases c <;> simpa only [Condition.Cause, hcount, hcfg] using hc

/-- Settles O35: the same answer, given again, writes the values that are there already. -/
theorem commandsThatMoveNoElementAreIdempotent :
    Obligations.CommandsThatMoveNoElementAreIdempotent := by
  intro i s t hpush hpop h
  have ht : t.ready = true := exec_next_serve_ready h t.active
  have hactive : t.active = s.active := (exec_next_effect h).active_eq
  -- The answer given again, where the status is the same and the rest is no change.
  have again {u : State} {v : Stat} (he : exec i t = .next (u.setRstat v)) (hu : u = t)
      (hv : (t.regs s.active).rstat = v) : exec i t = .next t := by
    subst hu
    rw [he, State.setRstat_self (hactive ▸ hv)]
  cases exec_next_answer h with
  | raised c hc =>
    exact again (exec_of_cause ht (hc.congr (by simp) (by simp))) rfl (raise_rstat s c)
  | nothing hi =>
    subst hi
    exact again (exec_nop ht) rfl (by simp)
  | cleared hi =>
    subst hi
    exact again (exec_clear ht) (State.setCount_self (State.afterClear_count s)) (by simp)
  | queried hi =>
    have hv : queryAnswer i (queryValue s (queryAnswer i s)) = queryAnswer i s :=
      queryAnswer_congr i (by simp) (by simp)
    refine again (exec_of_body ht (execBody_of_queries hi _)) (State.setRval_self ?_) ?_
    · rw [hactive, queryValue_regs_active, hv]
    · rw [queryValue_regs_active]
  | peeked n v hi hn hv =>
    subst hi
    obtain ⟨k, v', -, hslot, hv', he⟩ := exec_peek_valid (i := n) ht (by simpa using hn)
    have hvv : v' = v := by
      rw [hslot, slotOf_congr (s := s) (by simp) (by simp), State.afterPeek_slots, hv] at hv'
      exact (Option.some.inj hv').symm
    refine again he (State.setRdata_self ?_) ?_
    · rw [hactive, State.afterPeek_regs_active, hvv]
    · rw [State.afterPeek_regs_active]
  | pushed k hi => exact absurd hi (Bool.eq_false_iff.1 hpush)
  | popped v k hi => exact absurd hi (Bool.eq_false_iff.1 hpop)

end Sys2Proof.Machine
end

section
/-! PROOFS. The FIFO abstraction (spec/40_index_arithmetic.md §5): what each answer of a command does to
the contents, one clock edge as two operations on a plain queue, and the same-cycle hazards of CLEAR and
PEEK (spec/70_reset_and_hazards.md §3). -/

namespace Sys2Proof.Machine

/-! ### The contents -/

/-- In a ready state every valid slot holds a value, so no position is passed over. -/
theorem contents_eq_map {s : State} (h : s.Ready) : contents s =
    (List.range s.count.toNat).map fun n => (Memory.read s.slots (slotOf s n)).getD 0 := by
  rw [← List.filterMap_eq_map]
  refine List.filterMap_congr fun n hn => ?_
  obtain ⟨⟨v, hv⟩, -⟩ := h.valid n (List.mem_range.1 hn)
  simp [hv]

theorem contents_length {s : State} (h : s.Ready) : (contents s).length = s.count.toNat := by
  simp [contents_eq_map h]

/-- A valid position of the contents is what its slot holds. -/
theorem contents_getElem? {s : State} (h : s.Ready) {n : Nat} (hn : n < s.count.toNat) :
    (contents s)[n]? = Memory.read s.slots (slotOf s n) := by
  obtain ⟨⟨v, hv⟩, -⟩ := h.valid n hn
  simp [contents_eq_map h, hn, hv]

theorem contents_eq_nil_iff {s : State} (h : s.Ready) : contents s = [] ↔ s.count.toNat = 0 := by
  rw [← List.length_eq_zero_iff, contents_length h]

/-- The contents read the capacity, the cursor, the counter and the slots. -/
theorem contents_congr {s t : State} (hcfg : t.cfg = s.cfg) (hridx : t.ridx = s.ridx)
    (hcount : t.count = s.count) (hslots : t.slots = s.slots) : contents t = contents s := by
  simp only [contents, slotOf, hcfg, hridx, hcount, hslots]

@[simp] theorem contents_raise (s : State) (c : Condition) : contents (raise s c) = contents s :=
  contents_congr (by simp) (by simp) (by simp) (by simp)

@[simp] theorem contents_setRstat (s : State) (v : Stat) : contents (s.setRstat v) = contents s :=
  contents_congr (by simp) (by simp) (by simp) (by simp)

@[simp] theorem contents_queryValue (s : State) (v : Idx) :
    contents (queryValue s v) = contents s :=
  contents_congr (by simp) (by simp) (by simp) (by simp)

@[simp] theorem contents_afterPeek (s : State) (v : Elem) :
    contents (s.afterPeek v) = contents s :=
  contents_congr (by simp) (by simp) (by simp) (by simp)

@[simp] theorem contents_endCycle (s : State) : contents s.endCycle = contents s := rfl
@[simp] theorem contents_afterClear (s : State) : contents s.afterClear = [] := by simp [contents]
@[simp] theorem contents_resetState (s : State) : contents (resetState s) = [] := by simp [contents]

/-- A push appends its element: the slots of the other positions are other slots. -/
theorem contents_afterPush {s : State} (h : s.Ready) {k : Idx} (hroom : s.count.toNat < s.cfg.N)
    (hk : k.toNat = slotOf s s.count.toNat) :
    contents (s.afterPush k) = contents s ++ [pushOperand s] := by
  have hcap := h.cap_le
  have hcount : (s.count + 1).toNat = s.count.toNat + 1 := by
    rw [BitVec.toNat_add, show (1 : Idx).toNat = 1 from rfl]
    omega
  have hslot (n : Nat) : slotOf (s.afterPush k) n = slotOf s n :=
    slotOf_congr (by simp) (by simp) n
  have hold : ∀ n ∈ List.range s.count.toNat,
      Memory.read (Memory.write s.slots k.toNat (pushOperand s)) (slotOf s n) =
        Memory.read s.slots (slotOf s n) := fun n hn => by
    have hlt := List.mem_range.1 hn
    refine Memory.read_write_other _ _ fun heq => ?_
    have := slotOf_inj (hlt.trans hroom) hroom (heq.trans hk)
    omega
  simp only [contents, State.afterPush_count, State.afterPush_slots, hslot, hcount,
    List.range_succ, List.filterMap_append, List.filterMap_congr hold]
  simp [← hk]

/-- A pop takes the first element: each position of the contents after it is the next one before. -/
theorem contents_eq_cons_afterPop {s : State} (h : s.Ready) {v : Elem} {k : Idx}
    (hsome : 0 < s.count.toNat) (hv : Memory.read s.slots s.ridx.toNat = some v)
    (hk : k.toNat = (s.ridx.toNat + 1) % s.cfg.N) :
    contents s = v :: contents (s.afterPop v k) := by
  have hcount : s.count.toNat = (s.count - 1).toNat + 1 := by
    rw [BitVec.toNat_sub, show (1 : Idx).toNat = 1 from rfl]
    omega
  have hslot (n : Nat) : slotOf (s.afterPop v k) n = slotOf s (n + 1) := by
    simp [slotOf, hk, add_assoc, add_comm 1 n]
  have hfirst : Memory.read s.slots (slotOf s 0) = some v := by rw [slotOf_zero h.ridx_lt, hv]
  simp only [contents, State.afterPop_count, State.afterPop_slots, hslot, hcount,
    List.range_succ_eq_map, List.filterMap_cons, hfirst, List.filterMap_map]
  rfl

/-! ### Commands on a plain queue -/

theorem fifoCommand_of_pushes {i : Instr} (hi : i.pushes = true) (n : Nat) (v : Elem) (q : List Elem)
    (r : PortRegs) : fifoCommand n v i q r = fifoPush n v q r := by
  cases i <;> cases hi <;> rfl

theorem fifoCommand_of_pops {i : Instr} (hi : i.pops = true) (n : Nat) (v : Elem) (q : List Elem)
    (r : PortRegs) : fifoCommand n v i q r = fifoPop q r := by
  cases i <;> cases hi <;> rfl

theorem fifoPush_room {n : Nat} {q : List Elem} (h : q.length < n) (v : Elem) (r : PortRegs) :
    fifoPush n v q r = (q ++ [v], { r with rstat := 1 }) := if_pos h

theorem fifoPush_full {n : Nat} {q : List Elem} (h : ¬ q.length < n) (v : Elem) (r : PortRegs) :
    fifoPush n v q r = (q, { r with rstat := 2 }) := if_neg h

theorem fifoPop_nonempty {q : List Elem} (h : 0 < q.length) (r : PortRegs) :
    ∃ x xs, q = x :: xs ∧ fifoPop q r = (xs, { r with rstat := 1, rdata := x }) := by
  obtain ⟨x, xs, rfl⟩ := List.exists_cons_of_length_pos h
  exact ⟨x, xs, rfl, rfl⟩

theorem fifoPeek_some {n : Nat} {q : List Elem} {x : Elem} (h : q[n]? = some x) (r : PortRegs) :
    fifoPeek n q r = (q, { r with rstat := 1, rdata := x }) := by
  rw [fifoPeek, h]

theorem fifoPeek_none {n : Nat} {q : List Elem} (h : q.length ≤ n) (r : PortRegs) :
    fifoPeek n q r = (q, { r with rstat := 4 }) := by
  rw [fifoPeek, List.getElem?_eq_none h]

/-- The queries answer what they ask of the plain queue. -/
theorem fifoCommand_of_queries {i : Instr} (hi : i.queries = true) {s : State} (h : s.Ready)
    (v : Elem) (r : PortRegs) : fifoCommand s.cfg.N v i (contents s) r =
      (contents s, { r with rval := queryAnswer i s, rstat := statOk }) := by
  cases i with
  | qempty =>
    simp only [fifoCommand, queryAnswer, flagValue_eq, emptyFlag_iff, contents_eq_nil_iff h]
    rfl
  | qfull =>
    simp only [fifoCommand, queryAnswer, flagValue_eq, fullFlag_iff h.cap_le, contents_length h]
    rfl
  | qsize =>
    simp only [fifoCommand, queryAnswer, contents_length h, BitVec.ofNat_toNat, BitVec.setWidth_eq]
    rfl
  | qcap => rfl
  | nop | push | pop | clear | peek | lpush | lpop | pushref | illegal => cases hi

/-- A met condition is met on the plain queue too, and leaves it as it is. -/
theorem fifoCommand_of_cause {i : Instr} {s : State} (h : s.Ready) {c : Condition}
    (hc : c.Cause i s) (v : Elem) (r : PortRegs) :
    fifoCommand s.cfg.N v i (contents s) r = (contents s, { r with rstat := c.code }) := by
  have hlength := contents_length h
  cases c with
  | full =>
    obtain ⟨hi, hfull⟩ := hc
    exact (fifoCommand_of_pushes hi ..).trans (fifoPush_full (by omega) v r)
  | empty =>
    obtain ⟨hi, hempty⟩ := hc
    rw [fifoCommand_of_pops hi, (contents_eq_nil_iff h).2 hempty]
    rfl
  | outOfRange a =>
    obtain ⟨k, rfl, -, hk⟩ := hc
    exact fifoPeek_none (hlength ▸ hk) r
  | illegal w =>
    cases hc
    rfl

/-- Every answer of a command is that of its operation on the plain queue. -/
theorem Answer.refines {i : Instr} {s t : State} (h : s.Ready) (ha : Answer i s t) :
    (contents t, t.regs s.active) =
      fifoCommand s.cfg.N s.presented i (contents s) (s.regs s.active) := by
  cases ha with
  | raised c hc => rw [fifoCommand_of_cause h hc, contents_raise, State.raise_regs_active]
  | nothing hi =>
    subst hi
    rw [contents_setRstat, State.setRstat_regs_active]
    rfl
  | cleared hi =>
    subst hi
    rw [contents_afterClear, State.afterClear_regs_active]
    rfl
  | queried hi =>
    rw [fifoCommand_of_queries hi h, contents_queryValue, queryValue_regs_active]
  | peeked n v hi hn hv =>
    subst hi
    have hpeek : (contents s)[n.toNat]? = some v := (contents_getElem? h hn).trans hv
    rw [contents_afterPeek, State.afterPeek_regs_active]
    exact (fifoPeek_some hpeek _).symm
  | pushed k hi hroom hk =>
    rw [contents_afterPush h hroom hk, State.afterPush_regs_active, fifoCommand_of_pushes hi,
      fifoPush_room (by rwa [contents_length h])]
    rfl
  | popped v k hi hsome hv hk =>
    rw [State.afterPop_regs_active, fifoCommand_of_pops hi, contents_eq_cons_afterPop h hsome hv hk]
    rfl

/-- Settles O53: a command answers in every ready state, and every answer is that of the plain queue. -/
theorem commandsRefineThePlainQueue : Obligations.CommandsRefineThePlainQueue := by
  intro i s hs
  have h := State.ready_iff.1 hs
  obtain ⟨t, ht, ha⟩ := exec_answer hs i
  exact ⟨contents_length h, t, ht, (exec_next_effect ht).sameOutside, ha.refines h⟩

/-! ### A clock edge on a plain queue -/

/-- With `rst` low an edge is B's operation on the queue and then F's on the queue B leaves. -/
theorem step_refines_queue {s : State} (hs : s.ready = true) (hr : (pins s).rst = false) :
    ∃ t q, step s = .next t ∧
      (q, t.b) = fifoCommand s.cfg.N ((pins s).bWdata % 2 ^ s.cfg.W) (decode (pins s).bCmd)
        (contents s) s.b ∧
      (contents t, t.f) = fifoCommand s.cfg.N ((pins s).fWdata % 2 ^ s.cfg.W)
        (decode (pins s).fCmd) q s.f := by
  have h := State.ready_iff.1 hs
  obtain ⟨s1, h1, a1⟩ := exec_answer (s := s.serve .B) hs (decode (pins s).bCmd)
  have hs1 : (s1.serve .F).ready = true := exec_next_serve_ready h1 .F
  obtain ⟨s2, h2, a2⟩ := exec_answer hs1 (decode (pins s).fCmd)
  have e1 := exec_next_effect h1
  have hpins : pins s1 = pins s := e1.pins_eq
  have hcfg : s1.cfg = s.cfg := e1.cfg_eq
  have hother1 : s1.f = s.f := e1.other_eq
  have hother2 : s2.b = s1.b := (exec_next_effect h2).other_eq
  have hF : (s1.serve .F).presented = (pins s).fWdata % 2 ^ s.cfg.W := by
    rw [← hpins, ← hcfg]
    rfl
  have hrefB := a1.refines (h.serve .B)
  have hrefF := a2.refines (State.ready_iff.1 hs1)
  rw [hF, State.serve_cfg, hcfg, State.serve_regs, State.serve_active, State.regs_F, State.regs_F,
    hother1] at hrefF
  refine ⟨_, contents s1, step_of_both_next h.legal hr h1 h2, ?_, hrefF⟩
  rw [State.endCycle_b, hother2]
  exact hrefB

theorem decode_push_word : decode 0x0001 = .push := by decide
theorem decode_pop_word : decode 0x0002 = .pop := by decide
theorem decode_clear_word : decode 0x0003 = .clear := by decide

/-- Settles O40: the three pairs of operations on the plain queue. -/
theorem clearAgainstTheOtherPort : Obligations.ClearAgainstTheOtherPort := by
  intro s hs hr
  have h := State.ready_iff.1 hs
  have hlength := contents_length h
  obtain ⟨t, q, ht, hB, hF⟩ := step_refines_queue hs hr
  refine ⟨fun hb hf hroom => ⟨t, ht, ?_⟩, fun hb hf => ⟨t, ht, ?_⟩, fun hb hf hsome => ⟨t, ht, ?_⟩⟩
  · rw [hb, decode_push_word, fifoCommand, fifoPush_room (by rwa [hlength]), Prod.mk.injEq] at hB
    rw [hf, decode_clear_word, fifoCommand, Prod.mk.injEq] at hF
    simp [hB, hF]
  · rw [hb, decode_clear_word, fifoCommand, Prod.mk.injEq] at hB
    obtain ⟨rfl, hB⟩ := hB
    rw [hf, decode_push_word, fifoCommand, fifoPush_room h.cap_pos, Prod.mk.injEq] at hF
    simp [hB, hF]
  · obtain ⟨x, xs, hx, hfirst⟩ := fifoPop_nonempty (hlength ▸ hsome) s.b
    rw [hb, decode_pop_word, fifoCommand, hfirst, Prod.mk.injEq] at hB
    rw [hf, decode_clear_word, fifoCommand, Prod.mk.injEq] at hF
    simp [hB, hF, hx]

/-- Settles O41: B's operation shifts, extends or empties the plain queue that F's PEEK then reads. -/
theorem peekAgainstTheOtherPort : Obligations.PeekAgainstTheOtherPort := by
  intro s i hs hr hpeek
  have h := State.ready_iff.1 hs
  have hlength := contents_length h
  obtain ⟨t, q, ht, hB, hF⟩ := step_refines_queue hs hr
  rw [hpeek, fifoCommand] at hF
  refine ⟨fun hb hi => ⟨t, ht, ?_⟩, fun hb hi => ⟨t, ht, ?_⟩, fun hb hi hroom => ⟨t, ht, ?_⟩,
    fun hb => ⟨t, ht, ?_⟩⟩
  · obtain ⟨x, xs, hx, hfirst⟩ := fifoPop_nonempty (q := contents s) (by omega) s.b
    rw [hb, decode_pop_word, fifoCommand, hfirst, Prod.mk.injEq] at hB
    obtain ⟨rfl, -⟩ := hB
    obtain ⟨y, hy⟩ : ∃ y, q[i.toNat]? = some y :=
      ⟨_, List.getElem?_eq_getElem (by rw [hx, List.length_cons] at hlength; omega)⟩
    rw [fifoPeek_some hy, Prod.mk.injEq] at hF
    simp [hF, hx, hy]
  · obtain ⟨x, xs, hx, hfirst⟩ := fifoPop_nonempty (q := contents s) (by omega) s.b
    rw [hb, decode_pop_word, fifoCommand, hfirst, Prod.mk.injEq] at hB
    obtain ⟨rfl, -⟩ := hB
    rw [fifoPeek_none (by rw [hx, List.length_cons] at hlength; omega), Prod.mk.injEq] at hF
    simp [hF]
  · rw [hb, decode_push_word, fifoCommand, fifoPush_room (by rwa [hlength]), Prod.mk.injEq] at hB
    obtain ⟨rfl, -⟩ := hB
    rw [fifoPeek_some (by rw [hi, ← hlength, List.getElem?_concat_length]), Prod.mk.injEq] at hF
    simp [hF]
  · rw [hb, decode_clear_word, fifoCommand, Prod.mk.injEq] at hB
    obtain ⟨rfl, -⟩ := hB
    rw [fifoPeek_none (Nat.zero_le _), Prod.mk.injEq] at hF
    simp [hF]

end Sys2Proof.Machine
end

section
/-! PROOFS. FIFO order over runs (spec/20_memory.md §4, spec/40_index_arithmetic.md §5): no element is
lost, doubled or passed by another, in a command, in a cycle and so in every run. -/

namespace Sys2Proof.Machine

@[simp] theorem pushedOf_append (es fs : List Event) :
    pushedOf (es ++ fs) = pushedOf es ++ pushedOf fs := List.filterMap_append

@[simp] theorem removedOf_append (es fs : List Event) :
    removedOf (es ++ fs) = removedOf es ++ removedOf fs := List.filterMap_append

@[simp] theorem pushedOf_dropped (q : List Elem) : pushedOf (q.map .dropped) = [] := by
  simp [pushedOf, List.filterMap_map]

@[simp] theorem removedOf_dropped (q : List Elem) : removedOf (q.map .dropped) = q := by
  simp [removedOf, List.filterMap_map]

/-- The queue `q`, with the elements that `es` pushes behind it, is what `es` removes and then `q'`. -/
def Conserves (q : List Elem) (es : List Event) (q' : List Elem) : Prop :=
  q ++ pushedOf es = removedOf es ++ q'

theorem Conserves.refl (q : List Elem) : Conserves q [] q := by simp [Conserves, pushedOf, removedOf]

theorem Conserves.dropAll (q : List Elem) : Conserves q (q.map .dropped) [] := by simp [Conserves]

theorem Conserves.push (q : List Elem) (v : Elem) : Conserves q [.pushed v] (q ++ [v]) := by
  simp [Conserves, pushedOf, removedOf]

theorem Conserves.pop (v : Elem) (q : List Elem) : Conserves (v :: q) [.popped v] q := by
  simp [Conserves, pushedOf, removedOf]

theorem Conserves.trans {q q' q'' : List Elem} {es fs : List Event} (h : Conserves q es q')
    (h' : Conserves q' fs q'') : Conserves q (es ++ fs) q'' := by
  unfold Conserves at *
  calc q ++ pushedOf (es ++ fs) = (q ++ pushedOf es) ++ pushedOf fs := by simp
    _ = removedOf es ++ (q' ++ pushedOf fs) := by rw [h, List.append_assoc]
    _ = removedOf (es ++ fs) ++ q'' := by rw [h']; simp

/-! ### The events of a command -/

/-- A command that neither pushes, pops nor clears moves no element, whatever its status. -/
theorem commandEvents_eq_nil {i : Instr} (hpush : i.pushes = false) (hpop : i.pops = false)
    (hclear : i ≠ .clear) (s t : State) : commandEvents i s t = [] := by
  simp [commandEvents, hpush, hpop, hclear]

theorem commandEvents_of_failed {i : Instr} {s t : State} (h : (t.regs s.active).rstat ≠ 1) :
    commandEvents i s t = [] := if_pos h

/-- What a command reports of the elements it moves is what it does to the contents. -/
theorem Answer.conserves {i : Instr} {s t : State} (h : s.Ready) (ha : Answer i s t) :
    Conserves (contents s) (commandEvents i s t) (contents t) := by
  cases ha with
  | raised c hc =>
    have hfailed : ((raise s c).regs s.active).rstat ≠ 1 := fun hok => by
      have hcode := c.two_le_code
      rw [← raise_rstat s c, hok] at hcode
      exact absurd hcode (by decide)
    rw [commandEvents_of_failed hfailed, contents_raise]
    exact .refl _
  | nothing hi =>
    subst hi
    rw [commandEvents_eq_nil (i := .nop) rfl rfl nofun, contents_setRstat]
    exact .refl _
  | cleared hi =>
    subst hi
    have hevents : commandEvents .clear s s.afterClear = (contents s).map .dropped := by
      simp [commandEvents, Instr.pushes, Instr.pops, statOk]
    rw [hevents, contents_afterClear]
    exact .dropAll _
  | queried hi =>
    have hkind : i.pushes = false ∧ i.pops = false ∧ i ≠ .clear := by
      cases i <;> cases hi <;> exact ⟨rfl, rfl, nofun⟩
    obtain ⟨hpush, hpop, hclear⟩ := hkind
    rw [commandEvents_eq_nil hpush hpop hclear, contents_queryValue]
    exact .refl _
  | peeked n v hi =>
    subst hi
    rw [commandEvents_eq_nil (i := .peek n) rfl rfl nofun, contents_afterPeek]
    exact .refl _
  | pushed k hi hroom hk =>
    have hevents : commandEvents i s (s.afterPush k) = [.pushed (pushOperand s)] := by
      simp [commandEvents, hi, statOk]
    rw [hevents, contents_afterPush h hroom hk]
    exact .push _ _
  | popped v k hi hsome hv hk =>
    have hpush : i.pushes = false := by cases i <;> cases hi <;> rfl
    have hevents : commandEvents i s (s.afterPop v k) = [.popped v] := by
      simp [commandEvents, hi, hpush, statOk]
    rw [hevents, contents_eq_cons_afterPop h hsome hv hk]
    exact .pop _ _

/-! ### The events of a cycle and of a run -/

theorem portEvents_conserves {p : Port} {s t : State} (h : execPort p s = .next t) :
    Conserves (contents s) (portEvents p s) (contents t) := by
  have hs : (s.serve p).Ready := State.ready_iff.1 (exec_next_ready h)
  rw [portEvents, h]
  exact (exec_next_answer h).conserves hs

theorem cycleEvents_conserves {s t : State} (h : step s = .next t) :
    Conserves (contents s) (cycleEvents s) (contents t) := by
  obtain ⟨-, -, ⟨hr, rfl⟩ | ⟨hr, s1, s2, h1, h2, rfl⟩⟩ := step_next_cases h
  · rw [cycleEvents, if_pos hr, contents_endCycle, contents_resetState]
    exact .dropAll _
  · rw [cycleEvents, if_neg (Bool.eq_false_iff.1 hr), h1, contents_endCycle]
    exact (portEvents_conserves h1).trans (portEvents_conserves h2)

theorem runEvents_conserves (n : Nat) {s t : State} (h : run n s = .next t) :
    Conserves (contents s) (runEvents n s) (contents t) := by
  induction n generalizing s with
  | zero =>
    cases h
    exact .refl _
  | succ n ih =>
    obtain ⟨u, hu, hrest⟩ := andThen_next (run_succ n s ▸ h)
    rw [runEvents, hu]
    exact (cycleEvents_conserves hu).trans (ih hrest)

/-- Settles O54: every cycle conserves the elements in their order, and so does every run. -/
theorem runsKeepFifoOrder : Obligations.RunsKeepFifoOrder :=
  fun n _ _ _ h => runEvents_conserves n h

end Sys2Proof.Machine
end

section
/-! PROOFS. Stale slots are hidden (spec/10_state.md §8): two ready states with the same registers and the
same contents go on alike, whatever their other slots and their records of written slots hold. -/

namespace Sys2Proof.Machine

/-- Two ready states that differ at most in stale slots and in the record of written slots. -/
structure State.SameButStale (s s' : State) : Prop where
  ready : s.Ready
  ready' : s'.Ready
  cfg : s'.cfg = s.cfg
  wasReset : s'.wasReset = s.wasReset
  ridx : s'.ridx = s.ridx
  contents : contents s' = contents s
  regs : ∀ p, s'.regs p = s.regs p
  active : s'.active = s.active
  inputs : s'.inputs = s.inputs

theorem State.SameButStale.count {s s' : State} (h : s.SameButStale s') : s'.count = s.count := by
  apply BitVec.eq_of_toNat_eq
  rw [← contents_length h.ready', ← contents_length h.ready, h.contents]

theorem State.SameButStale.pins {s s' : State} (h : s.SameButStale s') : pins s' = pins s := by
  rw [Machine.pins, Machine.pins, h.inputs]

theorem State.SameButStale.presented {s s' : State} (h : s.SameButStale s') :
    s'.presented = s.presented := by
  rw [State.presented, State.presented, h.pins, h.active, h.cfg]

theorem State.SameButStale.serve {s s' : State} (h : s.SameButStale s') (p : Port) :
    (s.serve p).SameButStale (s'.serve p) :=
  { h with
    ready := h.ready.serve p
    ready' := h.ready'.serve p
    regs := by simpa using h.regs
    active := rfl }

theorem State.SameButStale.endCycle {s s' : State} (h : s.SameButStale s') :
    s.endCycle.SameButStale s'.endCycle :=
  { h with
    ready := h.ready.endCycle
    ready' := h.ready'.endCycle
    regs := by simpa using h.regs
    active := rfl
    inputs := congrArg List.tail h.inputs }

theorem State.SameButStale.resetState {s s' : State} (h : s.SameButStale s') :
    (resetState s).SameButStale (resetState s') where
  ready := resetState_ready h.ready.legal
  ready' := resetState_ready h.ready'.legal
  cfg := h.cfg
  wasReset := rfl
  ridx := rfl
  contents := by simp
  regs := by simp
  active := h.active
  inputs := h.inputs

/-- The cursor moves with a pop that finds an element, and only then. -/
theorem exec_next_ridx {i : Instr} {s t : State} (h : exec i s = .next t) : t.ridx.toNat =
    if i.pops = true ∧ 0 < s.count.toNat then (s.ridx.toNat + 1) % s.cfg.N else s.ridx.toNat := by
  by_cases hpop : i.pops = true ∧ 0 < s.count.toNat
  · obtain ⟨hi, hsome⟩ := hpop
    obtain ⟨u, v, hu, -, -, -, hridx, -⟩ :=
      (popContract_of_body (execBody_of_pops hi) s (exec_next_ready h)).2 hsome
    cases h.symm.trans hu
    rw [if_pos ⟨hi, hsome⟩, hridx]
  · rw [if_neg hpop]
    cases exec_next_answer h with
    | raised | nothing | cleared | queried | peeked | pushed => simp
    | popped v k hi hsome => exact absurd ⟨hi, hsome⟩ hpop

theorem Port.eq_or_eq_other (p q : Port) : p = q ∨ p = q.other := by
  cases p <;> cases q <;> decide

/-- A command goes on alike: its answer is that of the plain queue, which is the same for both. -/
theorem exec_sameButStale {i : Instr} {s s' t : State} (h : s.SameButStale s')
    (ht : exec i s = .next t) : ∃ t', exec i s' = .next t' ∧ t.SameButStale t' := by
  obtain ⟨t', ht', ha'⟩ := exec_answer (State.ready_iff.2 h.ready') i
  have ha := exec_next_answer ht
  have he := exec_next_effect ht
  have he' := exec_next_effect ht'
  have hqueue : (contents t', t'.regs s'.active) = (contents t, t.regs s.active) := by
    rw [ha'.refines h.ready', ha.refines h.ready, h.cfg, h.presented, h.contents, h.active, h.regs]
  obtain ⟨hcontents, hregs⟩ := Prod.mk.inj hqueue
  rw [h.active] at hregs
  have hother : t'.regs s.active.other = t.regs s.active.other := by
    rw [he.other_eq, ← h.active, he'.other_eq, h.regs]
  refine ⟨t', ht', he.ready h.ready, he'.ready h.ready', ?_, ?_, ?_, hcontents, fun p => ?_, ?_, ?_⟩
  · rw [he.cfg_eq, he'.cfg_eq, h.cfg]
  · rw [he.wasReset_eq, he'.wasReset_eq, h.wasReset]
  · apply BitVec.eq_of_toNat_eq
    rw [exec_next_ridx ht, exec_next_ridx ht', h.count, h.cfg, h.ridx]
  · rcases Port.eq_or_eq_other p s.active with rfl | rfl
    · exact hregs
    · exact hother
  · rw [he.active_eq, he'.active_eq, h.active]
  · rw [he.inputs_eq, he'.inputs_eq, h.inputs]

theorem execPort_sameButStale {p : Port} {s s' t : State} (h : s.SameButStale s')
    (ht : execPort p s = .next t) : ∃ t', execPort p s' = .next t' ∧ t.SameButStale t' := by
  rw [execPort, h.pins]
  exact exec_sameButStale (h.serve p) ht

theorem step_sameButStale {s s' t : State} (h : s.SameButStale s') (ht : step s = .next t) :
    ∃ t', step s' = .next t' ∧ t.SameButStale t' := by
  have hlegal := h.ready'.legal
  have hbroken := h.ready'.not_broken
  obtain ⟨-, -, ⟨hr, rfl⟩ | ⟨hr, s1, s2, h1, h2, rfl⟩⟩ := step_next_cases ht <;> rw [← h.pins] at hr
  · exact ⟨_, step_reset hlegal hbroken hr, h.resetState.endCycle⟩
  · obtain ⟨s1', h1', hs1⟩ := execPort_sameButStale h h1
    obtain ⟨s2', h2', hs2⟩ := execPort_sameButStale hs1 h2
    exact ⟨_, step_commands hlegal hbroken hr h1' h2', hs2.endCycle⟩

theorem run_sameButStale (n : Nat) {s s' t : State} (h : s.SameButStale s')
    (ht : run n s = .next t) : ∃ t', run n s' = .next t' ∧ t.SameButStale t' := by
  induction n generalizing s s' with
  | zero =>
    cases ht
    exact ⟨s', rfl, h⟩
  | succ n ih =>
    obtain ⟨u, hu, hrest⟩ := andThen_next (run_succ n s ▸ ht)
    obtain ⟨u', hu', hsame⟩ := step_sameButStale h hu
    obtain ⟨t', ht', htsame⟩ := ih hsame hrest
    exact ⟨t', (run_succ_of_next hu').trans ht', htsame⟩

/-- The outputs show neither the slots nor the record. -/
theorem outputs_sameButStale {s s' : State} (h : s.SameButStale s') : outputs s' = outputs s := by
  have hstatus : statusOutputs s' = statusOutputs s := by
    obtain ⟨k, hk, ho⟩ := statusOutputs_ready h.ready
    obtain ⟨k', hk', ho'⟩ := statusOutputs_ready h.ready'
    rw [writeIndex, h.cfg, h.ridx, h.count, ← writeIndex, hk] at hk'
    cases hk'
    simp only [ho, ho', emptyFlag, fullFlag, h.count, h.ridx, h.cfg]
  obtain ⟨st, hst, ho⟩ := outputs_ready h.ready
  obtain ⟨st', hst', ho'⟩ := outputs_ready h.ready'
  cases hst'.symm.trans (hstatus.trans hst)
  rw [ho, ho', ← State.regs_F, ← State.regs_B, h.regs, h.regs]
  rfl

/-- Other slots and another record, with the valid slots as they were. -/
theorem sameButStale_of_valid_slots {s : State} (h : s.Ready) {m : Memory} {w : SlotSet}
    (hvalid : ∀ n < s.count.toNat, Memory.read m (slotOf s n) = Memory.read s.slots (slotOf s n) ∧
      slotOf s n ∈ w) : s.SameButStale { s with slots := m, written := w } where
  ready := h
  ready' :=
    { h with
      valid := fun n hn => by
        obtain ⟨hread, hmem⟩ := hvalid n hn
        exact ⟨hread ▸ (h.valid n hn).1, hmem⟩ }
  cfg := rfl
  wasReset := rfl
  ridx := rfl
  contents := List.filterMap_congr fun n hn => (hvalid n (List.mem_range.1 hn)).1
  regs p := by cases p <;> rfl
  active := rfl
  inputs := rfl

/-- Settles O55: the relation holds at the start, every step keeps it, and it hides from the outputs and
the contents what it leaves open. -/
theorem staleSlotsAreHidden : Obligations.StaleSlotsAreHidden := by
  intro n s t m w hs hvalid ht
  obtain ⟨t', ht', h⟩ :=
    run_sameButStale n (sameButStale_of_valid_slots (State.ready_iff.1 hs) hvalid) ht
  exact ⟨t', ht', outputs_sameButStale h, h.contents⟩

end Sys2Proof.Machine
end
